-- ==== Sys2Proof/Word.lean ====
section
/-! DEFINITION. The 64-bit data word (`XLEN`, 00_scope R7), a message byte, and a register number. -/

namespace Sys2Proof

/-- Every data register, operand, product half, digest, seed and generator cell (00_scope R7). -/
abbrev Word := BitVec 64

/-- One byte of message memory (20_memory R60). -/
abbrev Byte := BitVec 8

/-- A host register number, 0 to 15: the four bits of the header's field `REG` (30_encoding R91). -/
abbrev RegNum := BitVec 4

end Sys2Proof
end

