-- ==== Sys2Proof/Config.lean ====
section
/-! DEFINITION. What is fixed when the block is built: the parameters of 00_scope R7. -/

namespace Sys2Proof.Config

/-- `BYTE_ORDER`: how a lane is assembled from message bytes (20_memory R65). -/
inductive ByteOrder where
  | little
  | big
deriving DecidableEq, Repr

/-- The two named parameters of one built block. No step of the model changes them (20_memory R65:
"No register, command or pin switches it"). -/
structure Params where
  /-- `ADDR_W`, the width of a message-memory address, 1 to 64. -/
  addrW : Nat
  byteOrder : ByteOrder
deriving DecidableEq, Repr

/-- The defaults that 00_scope R7 states: `ADDR_W` = 64, `BYTE_ORDER` = little. -/
def Params.default : Params := ⟨64, .little⟩

/-- The number of bytes of message memory, `2^ADDR_W` (20_memory R60). -/
def Params.memSize (p : Params) : Nat := 2 ^ p.addrW

/-- The range 00_scope R7 gives `ADDR_W`. -/
def Params.legal (p : Params) : Bool := decide (1 ≤ p.addrW) && decide (p.addrW ≤ 64)

/-- `BASE`, where the platform maps the host registers: an open parameter that no rule reads
(00_scope R7, 93 U4). Nothing in Lean knows its value. -/
opaque base : Nat

/-- On a memory-mapped platform register number `n` is at byte offset `8*n` from `BASE`
(30_encoding R91). -/
def busAddress (n : RegNum) : Nat := base + 8 * n.toNat

end Sys2Proof.Config
end

