-- ==== Sys2Proof/Syntax.lean ====
section
/-! DEFINITION. The instructions (one constructor per row of spec/opcode_table.json), the three
encoded things of 30_encoding R90, the phases, and the lines of a host script. -/

namespace Sys2Proof

/-- One constructor per row of the opcode table, in the table's order: three command words, two
port transactions, fourteen micro-operations. -/
inductive Instr where
  /-- command word 0x1 (30_encoding R94, 40_multiplier R126) -/
  | mul
  /-- command words 0x2, 0xA, 0x12, 0x1A with the flags `BP` and `SV` (R94, 42_digest_engine R171) -/
  | hash (bp sv : Bool)
  /-- command word 0x3 (R94, 43_prng_stepper R222) -/
  | pnext
  /-- host read of register `n` (44_host_port R241) -/
  | rd (n : RegNum)
  /-- host write of `value` to register `n` (44_host_port R243) -/
  | wr (n : RegNum) (value : Word)
  | mulX
  | prngX
  | hCheck
  | hInit
  | hSeed
  | hSelect
  | hShort
  | hMid
  | hLong
  | hBulkLd
  | hBulkMx
  | hTail
  | hFin1
  | hFin2
deriving DecidableEq, Repr

/-- What a legal command word asks for (30_encoding R97). -/
inductive Command where
  | mul
  | hash (bp sv : Bool)
  | pnext
deriving DecidableEq, Repr

/-- The instruction a command word is. -/
def Command.toInstr : Command → Instr
  | .mul => .mul
  | .hash bp sv => .hash bp sv
  | .pnext => .pnext

/-- The sixteen values of `PHASE` (30_encoding R100 allows an enumeration in place of the codes;
the codes are `Phase.code` in Decode.lean). -/
inductive Phase where
  | idle
  | mulX
  | prngX
  | hCheck
  | hInit
  | hSeed
  | hSelect
  | hShort
  | hMid
  | hLong
  | hBulkLd
  | hBulkMx
  | hTail
  | hFin1
  | hFin2
  | fault
deriving DecidableEq, Repr

/-- A host port request as it stands on the port: the 5-bit header (`WE` in bit 4, `REG` in bits
3 to 0) and the 64 bits `WDATA`, "present only when `WE` = 1" (30_encoding R91). -/
structure PortRequest where
  header : BitVec 5
  wdata : Option Word
deriving DecidableEq, Repr

/-- The three things that have an encoding (30_encoding R90). -/
inductive Encoded where
  | command (w : Word)
  | port (r : PortRequest)
  | phase (code : BitVec 4)
deriving DecidableEq, Repr

/-- A write that the port has not taken (44_host_port R244): register number and value. -/
structure PortWrite where
  reg : RegNum
  value : Word
deriving DecidableEq, Repr

/-- One line of a host script (30_encoding R102, R103). -/
inductive HostOp where
  /-- a port transaction -/
  | request (r : PortRequest)
  /-- the polling loop `wait` (R103) -/
  | wait
  /-- the reset event (R102, 70_reset R300) -/
  | reset
  /-- the host makes a byte of message memory hold `b` (the `mem` line of R102, a byte at a time,
  at the point of the script where it stands, but not while that byte is being hashed; log 6) -/
  | place (addr : Nat) (b : Byte)
deriving DecidableEq, Repr

/-- The agents that take steps (00_scope R6), and the reset event that may fall at any time
(70_reset R300). -/
inductive Agent where
  | core
  | host
  | reset
deriving DecidableEq, Repr

/-- One read of message memory: address and width in bytes (20_memory R71). -/
structure ReadReq where
  addr : Nat
  width : Nat
deriving DecidableEq, Repr

end Sys2Proof
end

