-- ==== Sys2Proof/WellFormed.lean ====
section
/-! DEFINITION. Which terms of Syntax.lean stand for something the block can be given. Every term of
`Instr` does: a register number has four bits and a value sixty-four (30_encoding R91). What can be
ill-formed is a port request whose data does not go with its header, a byte placed outside message
memory, and a set of parameters out of range. -/

namespace Sys2Proof

/-- Every instruction is well formed: the operand types hold exactly the values the encodings of
30_encoding R91, R93 and R100 have room for. -/
def Instr.wellFormed : Instr → Bool
  | .mul | .hash _ _ | .pnext | .rd _ | .wr _ _ | .mulX | .prngX | .hCheck | .hInit | .hSeed
  | .hSelect | .hShort | .hMid | .hLong | .hBulkLd | .hBulkMx | .hTail | .hFin1 | .hFin2 => true

/-- `WDATA` is "present only when `WE` = 1" (30_encoding R91). -/
def PortRequest.wellFormed (r : PortRequest) : Bool := r.header.getLsbD 4 == r.wdata.isSome

/-- A script line is well formed on a block with the parameters `p`. -/
def HostOp.wellFormed (p : Config.Params) : HostOp → Bool
  | .request r => r.wellFormed
  | .wait => true
  | .reset => true
  | .place a _ => decide (a < p.memSize)

end Sys2Proof
end

