-- ==== Sys2Proof/Decode.lean ====
section
/-! DEFINITION. The decoder, total on every command word, port request and phase code, rejecting by
name; then the encoder, written from the same tables of 30_encoding.md; then the host's numbering of
the opcode table. -/

namespace Sys2Proof

/-- Why a word is no instruction. -/
inductive DecodeError where
  /-- a command word that is not one of the six of 30_encoding R94 (R98) -/
  | illegalCommand
  /-- the phase codes of `IDLE` and `FAULT` have no micro-operation (R100) -/
  | noMicroOperation
  /-- a write header without the 64 bits `WDATA` (R91) -/
  | writeWithoutData
  /-- a read header with data (R91) -/
  | readWithData
deriving DecidableEq, Repr

/-! ### Decoding -/

/-- `OP`, bits 2 to 0 of a command word (30_encoding R93). -/
def opField (w : Word) : BitVec 3 := w.extractLsb' 0 3

/-- `SV` and `BP`, bits 4 and 3 of a command word (30_encoding R93). -/
def flagsField (w : Word) : BitVec 2 := w.extractLsb' 3 2

/-- The reserved bits 63 to 5 of a command word (30_encoding R93). -/
def reservedField (w : Word) : BitVec 59 := w.extractLsb' 5 59

/-- `Decode` of 30_encoding R97, total on every 64-bit word; `none` is its `Illegal`. -/
def decodeCommand (w : Word) : Option Command :=
  if reservedField w ≠ 0 then none
  else if opField w = 1 ∧ flagsField w = 0 then some .mul
  else if opField w = 2 then some (.hash (w.getLsbD 3) (w.getLsbD 4))
  else if opField w = 3 ∧ flagsField w = 0 then some .pnext
  else none

/-- A port request is a read or a write by `WE`, bit 4 of the header (30_encoding R91). -/
def decodePort (r : PortRequest) : Except DecodeError Instr :=
  match r.header.getLsbD 4, r.wdata with
  | false, none => .ok (.rd (r.header.extractLsb' 0 4))
  | true, some v => .ok (.wr (r.header.extractLsb' 0 4) v)
  | false, some _ => .error .readWithData
  | true, none => .error .writeWithoutData

/-- The phase a 4-bit code names (30_encoding R100): "All sixteen codes are used; none is reserved". -/
def Phase.ofCode (c : BitVec 4) : Phase :=
  match c.toNat with
  | 0 => .idle
  | 1 => .mulX
  | 2 => .prngX
  | 3 => .hCheck
  | 4 => .hInit
  | 5 => .hSeed
  | 6 => .hSelect
  | 7 => .hShort
  | 8 => .hMid
  | 9 => .hLong
  | 10 => .hBulkLd
  | 11 => .hBulkMx
  | 12 => .hTail
  | 13 => .hFin1
  | 14 => .hFin2
  | _ => .fault

/-- The micro-operation of a phase (30_encoding R100); `IDLE` and `FAULT` have none. -/
def Phase.microOp : Phase → Option Instr
  | .idle => none
  | .mulX => some .mulX
  | .prngX => some .prngX
  | .hCheck => some .hCheck
  | .hInit => some .hInit
  | .hSeed => some .hSeed
  | .hSelect => some .hSelect
  | .hShort => some .hShort
  | .hMid => some .hMid
  | .hLong => some .hLong
  | .hBulkLd => some .hBulkLd
  | .hBulkMx => some .hBulkMx
  | .hTail => some .hTail
  | .hFin1 => some .hFin1
  | .hFin2 => some .hFin2
  | .fault => none

/-- A phase code names a micro-operation, but for `IDLE` and `FAULT` (30_encoding R100). -/
def decodePhase (c : BitVec 4) : Except DecodeError Instr :=
  match (Phase.ofCode c).microOp with
  | some i => .ok i
  | none => .error .noMicroOperation

/-- The decoder: each of the three encoded things of 30_encoding R90 in its own space. -/
def decode : Encoded → Except DecodeError Instr
  | .command w =>
    match decodeCommand w with
    | some c => .ok c.toInstr
    | none => .error .illegalCommand
  | .port r => decodePort r
  | .phase c => decodePhase c

/-! ### Encoding -/

/-- The six legal command words (30_encoding R94). -/
def Command.word : Command → Word
  | .mul => 0x0000000000000001
  | .hash false false => 0x0000000000000002
  | .hash true false => 0x000000000000000A
  | .hash false true => 0x0000000000000012
  | .hash true true => 0x000000000000001A
  | .pnext => 0x0000000000000003

/-- A read's header is `0nnnn` (30_encoding R91). -/
def readRequest (n : RegNum) : PortRequest := ⟨0#1 ++ n, none⟩

/-- A write's header is `1nnnn`, and `WDATA` goes with it (30_encoding R91). -/
def writeRequest (n : RegNum) (v : Word) : PortRequest := ⟨1#1 ++ n, some v⟩

/-- The codes of the phases (30_encoding R100). -/
def Phase.code : Phase → BitVec 4
  | .idle => 0b0000
  | .mulX => 0b0001
  | .prngX => 0b0010
  | .hCheck => 0b0011
  | .hInit => 0b0100
  | .hSeed => 0b0101
  | .hSelect => 0b0110
  | .hShort => 0b0111
  | .hMid => 0b1000
  | .hLong => 0b1001
  | .hBulkLd => 0b1010
  | .hBulkMx => 0b1011
  | .hTail => 0b1100
  | .hFin1 => 0b1101
  | .hFin2 => 0b1110
  | .fault => 0b1111

/-- The encoder. -/
def encode : Instr → Encoded
  | .mul => .command Command.mul.word
  | .hash bp sv => .command (Command.hash bp sv).word
  | .pnext => .command Command.pnext.word
  | .rd n => .port (readRequest n)
  | .wr n v => .port (writeRequest n v)
  | .mulX => .phase Phase.mulX.code
  | .prngX => .phase Phase.prngX.code
  | .hCheck => .phase Phase.hCheck.code
  | .hInit => .phase Phase.hInit.code
  | .hSeed => .phase Phase.hSeed.code
  | .hSelect => .phase Phase.hSelect.code
  | .hShort => .phase Phase.hShort.code
  | .hMid => .phase Phase.hMid.code
  | .hLong => .phase Phase.hLong.code
  | .hBulkLd => .phase Phase.hBulkLd.code
  | .hBulkMx => .phase Phase.hBulkMx.code
  | .hTail => .phase Phase.hTail.code
  | .hFin1 => .phase Phase.hFin1.code
  | .hFin2 => .phase Phase.hFin2.code

/-! ### The opcode table's numbering -/

/-- A port header as a request; a write's `WDATA` is the operand word, zero in the table's numbering. -/
def headerRequest (h : BitVec 5) : PortRequest :=
  ⟨h, if h.getLsbD 4 then some 0 else none⟩

/-- What a row's bits are a value of. The table's widths tell its three spaces apart: 64 bits are a
command word, 5 bits a port header, 4 bits a phase code. A width rounded up to one byte no longer
tells a header from a phase code; DESIGN CHOICE (log 10): the codes 1 to 14 are then read as phases,
and every other byte below 32 as a port header. -/
def tableEncoded (nbits w : Nat) : Option Encoded :=
  if nbits = 64 then (if w < 2 ^ 64 then some (.command (BitVec.ofNat 64 w)) else none)
  else if nbits = 5 then (if w < 32 then some (.port (headerRequest (BitVec.ofNat 5 w))) else none)
  else if nbits = 4 then (if w < 16 then some (.phase (BitVec.ofNat 4 w)) else none)
  else if nbits = 8 then
    if 1 ≤ w ∧ w ≤ 14 then some (.phase (BitVec.ofNat 4 w))
    else if w < 32 then some (.port (headerRequest (BitVec.ofNat 5 w)))
    else none
  else none

/-- The instruction the decoder reads from a row's bits, numbered as spec/opcode_table.json numbers
them (operand words zero). -/
def decodeTableWord (nbits w : Nat) : Option Instr :=
  match tableEncoded nbits w with
  | none => none
  | some e =>
    match decode e with
    | .ok i => some i
    | .error _ => none

end Sys2Proof
end

