-- ==== Sys2Proof/Machine/State.lean ====
section
/-! DEFINITION. The state of the machine, its stops, and its value after reset. -/

namespace Sys2Proof.Machine

/-- The value of `CAUSE`. Its codes are in Flags.lean; "a model's `CAUSE` type may have exactly four
values" (93 U16, 60_exceptions R261). -/
inductive Cause where
  | noFault
  | nullBuf
  | illegal
  | range
deriving DecidableEq, Repr

/-- The whole state: the registers of the block (10_state R20), then what the spec puts outside it
(the instance's parameters R37, the message memory 20_memory R60, the port and the host's script
30_encoding R102), then two fields of the model's own (`readLog`, `turns`). INVENTORY.md lists each
with its rule and reset value. -/
structure State where
  /-- the parameters of the instance (00_scope R7); no step changes them -/
  inst : Config.Params
  /-- `PHASE`, the block's stand-in for a program counter (10_state R36) -/
  phase : Phase
  /-- `CMDL`, the low five bits of the most recently accepted command word (R33) -/
  cmdl : BitVec 5
  /-- `DONE` (R29) -/
  done : Bool
  /-- `CAUSE` (R44) -/
  cause : Cause
  /-- `ARG0`: operand `u`, or `PTR` (R27) -/
  arg0 : Word
  /-- `ARG1`: operand `v`, or `LEN` (R27) -/
  arg1 : Word
  /-- `ARG2`: the seed (R27) -/
  arg2 : Word
  /-- `RES0` (R28) -/
  res0 : Word
  /-- `RES1` (R28) -/
  res1 : Word
  /-- `P1`, first generator cell (R26) -/
  p1 : Word
  /-- `P2`, second generator cell (R26) -/
  p2 : Word
  /-- `S1`, first cell of the digest state pair (R21) -/
  s1 : Word
  /-- `S2`, second cell of the digest state pair (R21) -/
  s2 : Word
  /-- `MA`, A5's `maskA` (R22) -/
  ma : Word
  /-- `MB`, A5's `maskB` (R22) -/
  mb : Word
  /-- `LA`, lane `a` (R23) -/
  la : Word
  /-- `LB`, lane `b` (R23) -/
  lb : Word
  /-- `CUR`, the message cursor, `ADDR_W` bits wide: the bits above are zero (R24, log 8) -/
  cur : Word
  /-- `REM`, the remaining length (R24) -/
  rem : Word
  /-- the message memory: the bytes the platform backs, addresses rising (20_memory R60, log 2) -/
  mem : List Host.Cell
  /-- the writes that wait at the port, oldest first (44_host_port R244) -/
  waiting : List PortWrite
  /-- what the host will still do, in order (30_encoding R102) -/
  script : List HostOp
  /-- the script's result list, oldest first (R102: "the script's result list gets `RDATA`") -/
  results : List Word
  /-- the reads the message memory has answered, oldest first (the model's own field, log 13) -/
  readLog : List ReadReq
  /-- which agent moves next (the model's own field, log 3) -/
  turns : List Agent
deriving DecidableEq, Repr

/-- Why the machine has no next state. None of these is the block's own fault, which is a state with
`PHASE` = `FAULT` (60_exceptions R262); each is a stuck state, and stopping there is safe. -/
inductive Fault where
  /-- Answered by a load phase (`H_SHORT`, `H_MID`, `H_BULK_LD`, `H_TAIL`) that reads a byte the
  platform does not back: the core then has no step and "the block stays busy for ever (stuck)"
  (20_memory R73). Raised by step only where the host has no step either (log 21). Safe. -/
  | memoryUnanswered
  /-- Raised by a load phase whose address is not in message memory (below 0, or past
  `2^ADDR_W − 1`; 20_memory R60, R62). No run of an accepted command gets there (R192). Safe (log 7). -/
  | noSuchAddress
  /-- Raised by step: neither the core nor the host has a step, since no command runs and the script
  is at its end (60_exceptions R276, R267). Safe (log 14). -/
  | quiescent
  /-- Raised by step: `PHASE` = `FAULT`, a write waits at the port and is never taken until a reset,
  and no reset is due (44_host_port R244). Safe (log 14). -/
  | writeNeverTaken
deriving DecidableEq, Repr

/-- What the model has no meaning for. -/
inductive Refusal where
  /-- Raised by exec's arm of an instruction that has no meaning yet. Safe. -/
  | notModelled (mnemonic : String)
  /-- Raised by step for a port request that is no whole transaction: a write without its 64 bits of
  data, or a read with data (30_encoding R91, 93 U20). Safe (log 17). -/
  | badRequest
  /-- Raised by step for a script line that places a byte at an address that message memory does not
  have (20_memory R60). Safe (log 17). -/
  | outsideMemory
deriving DecidableEq, Repr

/-- The machine right after reset (10_state R39, 70_reset R300). The working registers `S1` to `REM`
hold no value in the spec; here they hold 0 (DESIGN CHOICE, log 1). Message memory belongs to the
platform: nothing is backed (DESIGN CHOICE, log 2). The parameters are the defaults of 00_scope R7.
Nothing waits at the port, and the host has nothing to do. -/
def State.reset : State where
  inst := Config.Params.default
  phase := .idle
  cmdl := 0
  done := false
  cause := .noFault
  arg0 := 0
  arg1 := 0
  arg2 := 0
  res0 := 0
  res1 := 0
  p1 := 0
  p2 := 0
  s1 := 0
  s2 := 0
  ma := 0
  mb := 0
  la := 0
  lb := 0
  cur := 0
  rem := 0
  mem := []
  waiting := []
  script := []
  results := []
  readLog := []
  turns := []

end Sys2Proof.Machine
end

