-- ==== Sys2Proof/Machine/Constants.lean ====
section
/-! DEFINITION. The fixed constants of the algorithm (10_state R30, R31). -/

namespace Sys2Proof.Machine

/-- `IV1` (10_state R30; the spec marks its value as general knowledge, 93 G1; log 15). -/
def iv1 : Word := 0x243F6A8885A308D3

/-- `IV2` (10_state R30; the spec marks its value as general knowledge, 93 G1; log 15). -/
def iv2 : Word := 0x452821E638D01377

/-- `VAL01`, every aligned bit pair is `01`; A5's `maskA` at the start (10_state R31). -/
def val01 : Word := 0x5555555555555555

/-- `VAL10`, every aligned bit pair is `10`; A5's `maskB` at the start (10_state R31). -/
def val10 : Word := 0xAAAAAAAAAAAAAAAA

end Sys2Proof.Machine
end

