-- ==== Sys2Proof/Machine/Flags.lean ====
section
/-! DEFINITION. Status. The block has no arithmetic flags (10_state R34); what a host can see is the
`STATUS` word (R29) and the three level outputs that mirror its bits (60_exceptions R269). -/

namespace Sys2Proof.Machine

/-- `BUSY` = 1 "when `PHASE` is neither `IDLE` nor `FAULT`" (10_state R29). -/
def Phase.isBusy : Phase → Bool
  | .idle => false
  | .fault => false
  | .mulX | .prngX | .hCheck | .hInit | .hSeed | .hSelect | .hShort | .hMid | .hLong | .hBulkLd
  | .hBulkMx | .hTail | .hFin1 | .hFin2 => true

/-- The 4-bit code of a cause (60_exceptions R261). -/
def Cause.code : Cause → BitVec 4
  | .noFault => 0
  | .nullBuf => 1
  | .illegal => 2
  | .range => 3

/-- `STATUS.BUSY`, and the level output `busy_o`, "equal at all times" to it (60_exceptions R269). -/
def State.busy (s : State) : Bool := Phase.isBusy s.phase

/-- `STATUS.FAULT` and the level output `fault_o` (10_state R29, 60_exceptions R269). -/
def State.faulted (s : State) : Bool := s.phase == .fault

/-- The level outputs of the block, in the order `busy_o`, `done_o`, `fault_o` (60_exceptions R269). -/
def State.outputs (s : State) : Bool × Bool × Bool := (s.busy, s.done, s.faulted)

/-- The `STATUS` word as a read assembles it: bits 63 to 8 zero, `CAUSE` in 7 to 4, bit 3 zero,
`FAULT` in 2, `DONE` in 1, `BUSY` in 0 (10_state R29, 44_host_port R241). -/
def State.status (s : State) : Word :=
  0#56 ++ Cause.code s.cause ++ 0#1 ++ BitVec.ofBool s.faulted ++ BitVec.ofBool s.done ++
    BitVec.ofBool s.busy

end Sys2Proof.Machine
end

