-- ==== Sys2Proof/Machine/Ops.lean ====
section
/-! DEFINITION. The shared operations: the product, message memory and its reads, fault entry, the
completing writes, command accept, the register reads and writes of the port, and reset. -/

namespace Sys2Proof.Machine

/-- What a meaning answers. -/
abbrev Out := Host.Outcome State Fault Refusal

/-! ### The product -/

/-- `MulFull(u, v)`: the exact product of the natural numbers, low half first (40_multiplier R120). -/
def mulFull (u v : Word) : Word × Word :=
  (BitVec.ofNat 64 (u.toNat * v.toNat), BitVec.ofNat 64 (u.toNat * v.toNat / 2 ^ 64))

/-! ### Message memory -/

/-- The byte at an address; `none` where the platform backs nothing (20_memory R62, R73). -/
def memRead : List Host.Cell → Nat → Option Byte
  | [], _ => none
  | c :: m, a => if c.1 = a then some c.2 else memRead m a

/-- The platform stores a byte. The list keeps its addresses rising. -/
def memWrite : List Host.Cell → Nat → Byte → List Host.Cell
  | [], a, b => [(a, b)]
  | c :: m, a, b =>
    if a < c.1 then (a, b) :: c :: m
    else if a = c.1 then (a, b) :: m
    else c :: memWrite m a b

/-- Every address of the list is above `lo`, and they rise. -/
def memRising : Option Nat → List Host.Cell → Bool
  | _, [] => true
  | none, c :: m => memRising (some c.1) m
  | some lo, c :: m => decide (lo < c.1) && memRising (some c.1) m

/-- The one form a memory has: addresses strictly rising. An unlisted address reads as `none`, which
no entry can hold, so no entry is superfluous. -/
def memWf (m : List Host.Cell) : Bool := memRising none m

/-- Every byte lies at one of the `size` addresses of message memory (20_memory R60). -/
def memWithin (size : Nat) (m : List Host.Cell) : Bool := m.all fun c => decide (c.1 < size)

/-- The `n` bytes at `a`, `a+1`, ..., lowest address first; `none` if one is not backed. -/
def memBytes (m : List Host.Cell) (a : Nat) : Nat → Option (List Byte)
  | 0 => some []
  | n + 1 =>
    match memRead m a, memBytes m (a + 1) n with
    | some b, some bs => some (b :: bs)
    | _, _ => none

/-- `MemRead(addr, n)` (20_memory R62), then `k` with the bytes. The message memory answers and logs
the read (log 13); where a byte is not backed there is no answer and the command is stuck (R73); an
address that message memory does not have can be formed only in a state no run reaches (log 7). -/
def readBytes (s : State) (addr : Int) (n : Nat) (k : List Byte → State → Out) : Out :=
  if 0 ≤ addr ∧ addr + n ≤ s.inst.memSize then
    match memBytes s.mem addr.toNat n with
    | some bs => k bs { s with readLog := s.readLog ++ [⟨addr.toNat, n⟩] }
    | none => .fault .memoryUnanswered
  else .fault .noSuchAddress

/-! ### Faults and completion -/

/-- `raise Fault(c)`: `CAUSE <- c`, `PHASE <- FAULT`, and nothing else (60_exceptions R262). There is
no return from it (R267): only `resetBlock` leaves `PHASE` = `FAULT`. -/
def raiseFault (c : Cause) (s : State) : State := { s with cause := c, phase := .fault }

/-- The writes every completing step makes together with its results (44_host_port R248). -/
def complete (s : State) : State := { s with done := true, phase := .idle }

/-- Reset: "one atomic step that puts every register at its reset value" (70_reset R300). A write
stalled at the port is discarded and message memory is not touched (R301). What is not the block's
(the instance, the script and its results, the read log, the turns) stays (log 20). -/
def resetBlock (s : State) : State :=
  { State.reset with
    inst := s.inst, mem := s.mem, script := s.script, results := s.results, readLog := s.readLog,
    turns := s.turns }

/-! ### The host port -/

/-- The first phase of a command (44_host_port R247). -/
def Command.firstPhase : Command → Phase
  | .mul => .mulX
  | .hash _ _ => .hCheck
  | .pnext => .prngX

/-- Command accept, a write of `CMD` that the port takes (44_host_port R247): `CMDL` and `DONE`, then
the command's first phase, or fault `ILLEGAL` (60_exceptions R264). -/
def accept (w : Word) (s : State) : State :=
  let s := { s with cmdl := w.extractLsb' 0 5, done := false }
  match decodeCommand w with
  | some c => { s with phase := Command.firstPhase c }
  | none => raiseFault .illegal s

/-- The effect of a write that the port takes (44_host_port R243, R246, R247). -/
def takeWrite (n : RegNum) (v : Word) (s : State) : State :=
  match n.toNat with
  | 0 => accept v s
  | 2 => { s with arg0 := v }
  | 3 => { s with arg1 := v }
  | 4 => { s with arg2 := v }
  | 7 => { s with p1 := v }
  | 8 => { s with p2 := v }
  | _ => s

/-- A write that the port does not take waits there and has no other effect (44_host_port R244). -/
def holdWrite (n : RegNum) (v : Word) (s : State) : State :=
  { s with waiting := s.waiting ++ [⟨n, v⟩] }

/-- A host write: taken only when `PHASE` = `IDLE` (44_host_port R243), else it waits (R244). -/
def portWrite (n : RegNum) (v : Word) (s : State) : State :=
  if s.phase = .idle then takeWrite n v s else holdWrite n v s

/-- `RDATA` of a read (44_host_port R241, 10_state R32, R45). -/
def portRead (n : RegNum) (s : State) : Word :=
  match n.toNat with
  | 0 => 0
  | 1 => s.status
  | 2 => s.arg0
  | 3 => s.arg1
  | 4 => s.arg2
  | 5 => s.res0
  | 6 => s.res1
  | 7 => s.p1
  | 8 => s.p2
  | _ => 0

end Sys2Proof.Machine
end

