-- ==== Sys2Proof/Machine/Operands.lean ====
section
/-! DEFINITION. Operand forms: the flags latched with the command, the effective seed, address
truncation, bytes and lanes of the message. -/

namespace Sys2Proof.Machine

/-- `BP` of the running command, `CMDL[3]` (10_state R33, 30_encoding R95). -/
def State.bp (s : State) : Bool := s.cmdl.getLsbD 3

/-- `SV` of the running command, `CMDL[4]` (10_state R33, 30_encoding R96). -/
def State.sv (s : State) : Bool := s.cmdl.getLsbD 4

/-- The effective seed: "`SEED` = `ARG2` when `SV` = 1 and `SEED` = 0 when `SV` = 0" (30_encoding R96). -/
def State.seed (s : State) : Word := if s.sv then s.arg2 else 0

/-- `v[ADDR_W-1:0]`: what an `ADDR_W`-bit register keeps of a value (41_mix_unit R142, 10_state R24). -/
def truncAddr (p : Config.Params) (v : Word) : Word := BitVec.ofNat 64 (v.toNat % p.memSize)

/-- The number a list of bytes stands for, lowest address least significant (20_memory R64, little). -/
def littleNat : List Byte → Nat
  | [] => 0
  | b :: bs => b.toNat + 256 * littleNat bs

/-- The number a lane's bytes stand for under the byte order (20_memory R64). -/
def laneNat : Config.ByteOrder → List Byte → Nat
  | .little, bs => littleNat bs
  | .big, bs => littleNat bs.reverse

/-- A lane as a 64-bit value, a 4-byte one zero-extended (20_memory R64). -/
def laneValue (o : Config.ByteOrder) (bs : List Byte) : Word := BitVec.ofNat 64 (laneNat o bs)

/-- `Lane(addr, n)` (20_memory R64), then `k` with its value. -/
def readLane (s : State) (addr : Int) (n : Nat) (k : Word → State → Out) : Out :=
  readBytes s addr n fun bs t => k (laneValue s.inst.byteOrder bs) t

/-- `Byte(addr)` (20_memory R63) if `c` holds, then `k` with its value; 0 and no read if not. -/
def readByteIf (c : Bool) (s : State) (addr : Int) (k : Word → State → Out) : Out :=
  if c then readBytes s addr 1 fun bs t => k (laneValue .little bs) t else k 0 s

/-- `CUR` as a natural number (10_state R24). -/
def State.curNat (s : State) : Int := s.cur.toNat

/-- `LEN` as a natural number (30_encoding R99). -/
def State.len (s : State) : Nat := s.arg1.toNat

/-- The offset of the interior windows on the mid path, `(LEN >> 3) * 4` (42_digest_engine R182). -/
def midOffset (len : Nat) : Nat := len / 8 * 4

/-- The range check of `H_CHECK`: `PTR + LEN > 2^ADDR_W`, natural numbers (42_digest_engine R172). -/
def State.runsPastTop (s : State) : Bool := decide (s.inst.memSize < s.arg0.toNat + s.arg1.toNat)

end Sys2Proof.Machine
end

