-- ==== Sys2Proof/Machine/Digest.lean ====
section
/-! DEFINITION. The twelve micro-operations of a `HASH` command, in the order of the phase table of
42_digest_engine R174. Each reads the registers as they stand before the step and writes its
successor phase. -/

namespace Sys2Proof.Machine

/-- `H_CHECK` (42_digest_engine R172): `NULLBUF` is tested before `RANGE` (60_exceptions R266). -/
def execHCheck (s : State) : Out :=
  if s.arg1 ≠ 0 ∧ s.bp = false then .next (raiseFault .nullBuf s)
  else if s.arg1 ≠ 0 ∧ s.runsPastTop = true then .next (raiseFault .range s)
  else .next { s with phase := .hInit }

/-- `H_INIT` (41_mix_unit R142). -/
def execHInit (s : State) : Out :=
  .next { s with
    s1 := iv1 ^^^ s.arg1, s2 := iv2 ^^^ s.arg1, ma := val01, mb := val10,
    cur := truncAddr s.inst s.arg0, rem := s.arg1, phase := .hSeed }

/-- `H_SEED` (41_mix_unit R143). -/
def execHSeed (s : State) : Out :=
  let p := mulFull (s.s2 ^^^ (s.seed &&& s.mb)) (s.s1 ^^^ (s.seed &&& s.ma))
  .next { s with s1 := p.1, s2 := p.2, mb := s.mb ^^^ p.2, phase := .hSelect }

/-- The path that a length takes (42_digest_engine R176). -/
def pathOf (len : Word) : Phase :=
  if len.toNat ≤ 3 then .hShort else if len.toNat ≤ 16 then .hMid else .hLong

/-- `H_SELECT` (42_digest_engine R176). -/
def execHSelect (s : State) : Out := .next { s with phase := pathOf s.arg1 }

/-- The final lanes are loaded and finalisation follows (42_digest_engine R174). -/
def loadFinal (a b : Word) (s : State) : Out := .next { s with la := a, lb := b, phase := .hFin1 }

/-- `H_SHORT` (42_digest_engine R180): byte by byte, lowest address first. -/
def execHShort (s : State) : Out :=
  readByteIf (decide (1 ≤ s.len)) s s.curNat fun b0 t =>
  readByteIf (decide (2 ≤ s.len)) t (s.curNat + 1) fun b1 t =>
  readByteIf (decide (s.len = 3)) t (s.curNat + 2) fun b2 t =>
  loadFinal (b0 ||| b1 <<< 8 ||| b2 <<< 16) 0 t

/-- `H_MID` (42_digest_engine R182): the first and the last four bytes, then the two interior windows;
of lane `b` the front window is the high half (the spec's own reading, 93 G2; log 15). -/
def execHMid (s : State) : Out :=
  let o := midOffset s.len
  readLane s s.curNat 4 fun w0 t =>
  readLane t (s.curNat + s.len - 4) 4 fun w1 t =>
  readLane t (s.curNat + o) 4 fun w2 t =>
  readLane t (s.curNat + s.len - 4 - o) 4 fun w3 t =>
  loadFinal (w0 <<< 32 ||| w1) (w2 <<< 32 ||| w3) t

/-- `H_LONG` (41_mix_unit R144). -/
def execHLong (s : State) : Out := .next { s with ma := s.ma ^^^ s.s1, phase := .hBulkLd }

/-- `H_BULK_LD` (42_digest_engine R184). -/
def execHBulkLd (s : State) : Out :=
  readLane s s.curNat 8 fun a t =>
  readLane t (s.curNat + 8) 8 fun b t =>
  .next { t with la := a, lb := b, phase := .hBulkMx }

/-- `H_BULK_MX`: the mixing part (41_mix_unit R145) and the cursor part (42_digest_engine R186), one
step. The loop test is on the new `REM`. -/
def execHBulkMx (s : State) : Out :=
  let p := mulFull (s.la ^^^ s.s1) (s.lb ^^^ s.s2)
  .next { s with
    s1 := p.1 + s.ma, s2 := p.2 + s.mb,
    cur := truncAddr s.inst (s.cur + 16), rem := s.rem - 16,
    phase := if 16 < (s.rem - 16).toNat then .hBulkLd else .hTail }

/-- `H_TAIL` (42_digest_engine R190). -/
def execHTail (s : State) : Out :=
  readLane s (s.curNat + s.rem.toNat - 16) 8 fun a t =>
  readLane t (s.curNat + s.rem.toNat - 8) 8 fun b t =>
  loadFinal a b t

/-- `H_FIN1` (41_mix_unit R146). -/
def execHFin1 (s : State) : Out :=
  let p := mulFull (s.s1 ^^^ s.la) (s.s2 ^^^ s.lb)
  .next { s with s1 := p.1, s2 := p.2, phase := .hFin2 }

/-- `H_FIN2` (41_mix_unit R147): the digest goes to `RES0`. -/
def execHFin2 (s : State) : Out :=
  let p := mulFull (s.s1 ^^^ s.ma) s.s2
  .next (complete { s with s1 := p.1, s2 := p.2, res0 := p.1 ^^^ p.2 })

end Sys2Proof.Machine
end

