-- ==== Sys2Proof/Machine/Port.lean ====
section
/-! DEFINITION. The port transactions `rd` and `wr`, and the three commands as the host issues them. -/

namespace Sys2Proof.Machine

/-- `rd n` (44_host_port R241): taken at once in every phase; "It changes no state"; the script's
result list gets `RDATA` (30_encoding R102). -/
def execRd (n : RegNum) (s : State) : Out :=
  .next { s with results := s.results ++ [portRead n s] }

/-- `wr n, value` (44_host_port R243 to R247). -/
def execWr (n : RegNum) (v : Word) (s : State) : Out := .next (portWrite n v s)

/-- `mul` is `wr CMD, 0x1` (30_encoding R102, 40_multiplier R126). -/
def execMul (s : State) : Out := .next (portWrite 0 Command.mul.word s)

/-- `hash`, `hash.d`, `hash.n`, `hash.nd` are `wr CMD` of their words (30_encoding R102,
42_digest_engine R171). -/
def execHash (bp sv : Bool) (s : State) : Out := .next (portWrite 0 (Command.hash bp sv).word s)

/-- `pnext` is `wr CMD, 0x3` (30_encoding R102, 43_prng_stepper R222). -/
def execPnext (s : State) : Out := .next (portWrite 0 Command.pnext.word s)

end Sys2Proof.Machine
end

