-- ==== Sys2Proof/Machine/Product.lean ====
section
/-! DEFINITION. The micro-operations of the multiplier and the generator: `MUL_X` and `PRNG_X`. -/

namespace Sys2Proof.Machine

/-- `MUL_X` (40_multiplier R126). -/
def execMulX (s : State) : Out :=
  let p := mulFull s.arg0 s.arg1
  .next (complete { s with res0 := p.1, res1 := p.2 })

/-- `PrngStep(p1, p2)`: the new cells and the output (43_prng_stepper R220). -/
def prngStep (p1 p2 : Word) : Word × Word × Word :=
  let p := mulFull (p1 + val01) (p2 + val10)
  (p.1, p.2, p.1 ^^^ p.2)

/-- `PRNG_X` (43_prng_stepper R222), with the fixed constants, never `MA` and `MB` (R221). -/
def execPrngX (s : State) : Out :=
  let r := prngStep s.p1 s.p2
  .next (complete { s with p1 := r.1, p2 := r.2.1, res0 := r.2.2 })

end Sys2Proof.Machine
end

