-- ==== Sys2Proof/Machine/Dispatch.lean ====
section
/-! DEFINITION. The one dispatch from instructions to meanings. -/

namespace Sys2Proof.Machine

def exec (i : Instr) (s : State) : Host.Outcome State Fault Refusal :=
  match i with
  | .mul => Sys2Proof.Machine.execMul s
  | .hash bp sv => Sys2Proof.Machine.execHash bp sv s
  | .pnext => Sys2Proof.Machine.execPnext s
  | .rd n => Sys2Proof.Machine.execRd n s
  | .wr n value => Sys2Proof.Machine.execWr n value s
  | .mulX => Sys2Proof.Machine.execMulX s
  | .prngX => Sys2Proof.Machine.execPrngX s
  | .hCheck => Sys2Proof.Machine.execHCheck s
  | .hInit => Sys2Proof.Machine.execHInit s
  | .hSeed => Sys2Proof.Machine.execHSeed s
  | .hSelect => Sys2Proof.Machine.execHSelect s
  | .hShort => Sys2Proof.Machine.execHShort s
  | .hMid => Sys2Proof.Machine.execHMid s
  | .hLong => Sys2Proof.Machine.execHLong s
  | .hBulkLd => Sys2Proof.Machine.execHBulkLd s
  | .hBulkMx => Sys2Proof.Machine.execHBulkMx s
  | .hTail => Sys2Proof.Machine.execHTail s
  | .hFin1 => Sys2Proof.Machine.execHFin1 s
  | .hFin2 => Sys2Proof.Machine.execHFin2 s

end Sys2Proof.Machine
end

