-- ==== Sys2Proof/Machine/Agents.lean ====
section
/-! DEFINITION. What each agent's step is (00_scope R6): the core runs its phase, the host the oldest
write that waits at the port or the next line of its script. -/

namespace Sys2Proof.Machine

/-- One core step: the micro-operation that `PHASE` names (10_state R36). With `PHASE` = `IDLE` or
`FAULT` there is none (60_exceptions R267, R276). -/
def coreStep (s : State) : Out :=
  match decode (.phase s.phase.code) with
  | .ok i => exec i s
  | .error _ => .fault .quiescent

/-- The message memory has no answer (20_memory R73). -/
def unanswered : Out → Bool
  | .fault r => r == .memoryUnanswered
  | .next _ => false
  | .refused _ => false

/-- Whether the core has a step: a command runs, and no read of its phase goes without an answer ("the
`HASH` command then has no further step: the block stays busy for ever", 20_memory R73, log 21). -/
def coreReady (s : State) : Bool := s.busy && !unanswered (coreStep s)

/-- A byte of the message of the `HASH` command that runs; the host has no step that changes it "from
the step that accepts the `HASH` command until the step that completes it" or faults (20_memory R69,
log 6). -/
def State.inMessage (s : State) (a : Nat) : Bool :=
  s.busy && s.cmdl.extractLsb' 0 3 == 2 && decide (s.arg0.toNat ≤ a) &&
    decide (a < s.arg0.toNat + s.arg1.toNat)

/-- Whether the host has a step: a waiting write only when `PHASE` = `IDLE` (44_host_port R244); behind
a waiting write the host does nothing ("The port takes transactions in the order they arrive", R240);
a line that changes a byte of message memory not while that byte is being hashed (20_memory R69). -/
def hostReady (s : State) : Bool :=
  match s.waiting, s.script with
  | _ :: _, _ => s.phase == .idle
  | [], [] => false
  | [], .place a _ :: _ => !s.inMessage a
  | [], .request _ :: _ => true
  | [], .wait :: _ => true
  | [], .reset :: _ => true

/-- A port request becomes the instruction it decodes to (30_encoding R91). -/
def issue (r : PortRequest) (s : State) : Out :=
  match decode (.port r) with
  | .ok i => exec i s
  | .error _ => .refused .badRequest

/-- The next line of the script, `s` being the state without it. An unsuccessful poll of `wait` leaves
the line in place and keeps no result (30_encoding R103: "the result list gets only the last value
read"). -/
def scriptStep (op : HostOp) (s : State) : Out :=
  match op with
  | .request r => issue r s
  | .wait =>
    if (portRead 1 s).getLsbD 0 then .next { s with script := .wait :: s.script } else exec (.rd 1) s
  | .reset => .next (resetBlock s)
  | .place a b =>
    if a < s.inst.memSize then .next { s with mem := memWrite s.mem a b } else .refused .outsideMemory

/-- One host step. -/
def hostStep (s : State) : Out :=
  match s.waiting, s.script with
  | w :: ws, _ => exec (.wr w.reg w.value) { s with waiting := ws }
  | [], op :: ops => scriptStep op { s with script := ops }
  | [], [] => .fault .quiescent

/-- The stuck states of step: the core has no step, and the host has none either (log 14). -/
def stopReason (s : State) : Fault :=
  if s.busy then .memoryUnanswered else if s.waiting = [] then .quiescent else .writeNeverTaken

/-- The step of the agent whose turn it is, `s` being the state without that turn. An agent that has
no step lets its turn pass (log 3). -/
def agentStep (g : Agent) (s : State) : Out :=
  match g with
  | .core => if coreReady s then coreStep s else .next s
  | .host => if hostReady s then hostStep s else .next s
  | .reset => .next (resetBlock s)

/-- The step when no turn is set: the core if it has a step, else the host (70_reset R320: "an enabled
core step is eventually taken"; log 3). -/
def freeStep (s : State) : Out :=
  if coreReady s then coreStep s else if hostReady s then hostStep s else .fault (stopReason s)

/-- `s` with an encoded thing standing where the machine takes its next instruction from, and the turn
given to the agent that runs it: a phase code in `PHASE`, a port request at the head of the script with
nothing waiting before it; a command word is the write of it to `CMD` (30_encoding R90, R102). A write
is taken only by an idle block, so `PHASE` = `IDLE` goes with it. Where no turn is set the core moves
first anyway, so a phase code needs none (log 11). -/
def State.withEncoded (s : State) : Encoded → State
  | .phase c =>
    { s with
      phase := Phase.ofCode c, turns := if s.turns.isEmpty then [] else .core :: s.turns }
  | .port r =>
    { s with
      phase := if r.header.getLsbD 4 then .idle else s.phase
      waiting := [], script := .request r :: s.script, turns := .host :: s.turns }
  | .command w =>
    { s with
      phase := .idle, waiting := [], script := .request (writeRequest 0 w) :: s.script,
      turns := .host :: s.turns }

end Sys2Proof.Machine
end

