-- ==== Sys2Proof/Machine/Step.lean ====
section
/-! DEFINITION. One step of the machine, and the state in which a given word is the next to run. -/

namespace Sys2Proof.Machine

/-- One step: the agent whose turn is set, or the default of `freeStep`. -/
def step (s : State) : Host.Outcome State Fault Refusal :=
  match s.turns with
  | g :: gs => agentStep g { s with turns := gs }
  | [] => freeStep s

/-- `s` with the row's word, numbered as spec/opcode_table.json numbers it, as the next to run. -/
def State.withFetchWord (s : State) (nbits w : Nat) : State :=
  match tableEncoded nbits w with
  | some e => s.withEncoded e
  | none => s

end Sys2Proof.Machine
end

