-- ==== Sys2Proof/Machine/Reference.lean ====
section
/-! DEFINITION. The functions of the spec that a whole command is held against: `Hash64`
(42_digest_engine R170), the list of reads (20_memory R71), the step counts (42_digest_engine R175),
and the 32×32 decomposition of the product (40_multiplier R124). -/

namespace Sys2Proof.Machine

/-- Byte `i` of the message as a 64-bit value. -/
def msgByte (msg : List Byte) (i : Nat) : Word := laneValue .little ((msg.drop i).take 1)

/-- `lane4(i)`, `lane8(i)`: the lane of `n` message bytes from byte `i` on (42_digest_engine R170). -/
def msgLane (o : Config.ByteOrder) (msg : List Byte) (i n : Nat) : Word :=
  laneValue o ((msg.drop i).take n)

/-- Lane `a` of the short path (42_digest_engine R170, step 3, short). -/
def shortLane (msg : List Byte) : Word :=
  (if 1 ≤ msg.length then msgByte msg 0 else 0) |||
    (if 2 ≤ msg.length then msgByte msg 1 <<< 8 else 0) |||
    (if msg.length = 3 then msgByte msg 2 <<< 16 else 0)

/-- The `while r > 16` loop of 42_digest_engine R170; `fuel` bounds the passes and the message's
length is always enough. -/
def bulkLoop (o : Config.ByteOrder) (msg : List Byte) (ma mb : Word) :
    Nat → Nat → Nat → Word × Word → Word × Word
  | 0, _, _, st => st
  | fuel + 1, c, r, st =>
    if 16 < r then
      let p := mulFull (msgLane o msg c 8 ^^^ st.1) (msgLane o msg (c + 8) 8 ^^^ st.2)
      bulkLoop o msg ma mb fuel (c + 16) (r - 16) (p.1 + ma, p.2 + mb)
    else st

/-- Step 4 of 42_digest_engine R170: the two finalisation products and the XOR of the halves. -/
def finish (st : Word × Word) (ma la lb : Word) : Word :=
  let p := mulFull (st.1 ^^^ la) (st.2 ^^^ lb)
  let q := mulFull (p.1 ^^^ ma) p.2
  q.1 ^^^ q.2

/-- The product of seed injection as a function of length and seed alone (41_mix_unit R150). -/
def seedProduct (len seed : Word) : Word × Word :=
  mulFull ((iv2 ^^^ len) ^^^ (seed &&& val10)) ((iv1 ^^^ len) ^^^ (seed &&& val01))

/-- `Hash64(msg, SEED)` (42_digest_engine R170). -/
def hash64 (o : Config.ByteOrder) (msg : List Byte) (seed : Word) : Word :=
  let n := msg.length
  let st := seedProduct (BitVec.ofNat 64 n) seed
  let mb := val10 ^^^ st.2
  if n ≤ 3 then finish st val01 (shortLane msg) 0
  else if n ≤ 16 then
    let off := midOffset n
    finish st val01
      (msgLane o msg 0 4 <<< 32 ||| msgLane o msg (n - 4) 4)
      (msgLane o msg off 4 <<< 32 ||| msgLane o msg (n - 4 - off) 4)
  else
    let ma := val01 ^^^ st.1
    finish (bulkLoop o msg ma mb n 0 n st) ma (msgLane o msg (n - 16) 8) (msgLane o msg (n - 8) 8)

/-- The number of bulk iterations of a message of 17 bytes or more (42_digest_engine R188). -/
def bulkCount (len : Nat) : Nat := (len - 1) / 16

/-- Core steps of a passing `HASH` after the accepting step (42_digest_engine R175). -/
def hashSteps (len : Nat) : Nat := if len ≤ 16 then 7 else 8 + 2 * bulkCount len

/-- The reads of the bulk loop, iteration by iteration (20_memory R71). -/
def bulkReads (ptr : Nat) : Nat → List ReadReq
  | 0 => []
  | k + 1 => bulkReads ptr k ++ [⟨ptr + 16 * k, 8⟩, ⟨ptr + 16 * k + 8, 8⟩]

/-- The exact list of reads of a passing `HASH`, in order (20_memory R71). -/
def messageReads (ptr len : Nat) : List ReadReq :=
  if len = 0 then []
  else if len = 1 then [⟨ptr, 1⟩]
  else if len = 2 then [⟨ptr, 1⟩, ⟨ptr + 1, 1⟩]
  else if len = 3 then [⟨ptr, 1⟩, ⟨ptr + 1, 1⟩, ⟨ptr + 2, 1⟩]
  else if len ≤ 16 then
    let o := midOffset len
    [⟨ptr, 4⟩, ⟨ptr + len - 4, 4⟩, ⟨ptr + o, 4⟩, ⟨ptr + len - 4 - o, 4⟩]
  else bulkReads ptr (bulkCount len) ++ [⟨ptr + len - 16, 8⟩, ⟨ptr + len - 8, 8⟩]

/-- The schoolbook decomposition into 32-bit halves (40_multiplier R124), natural numbers. -/
def schoolbook (u v : Word) : Word × Word :=
  let u0 := u.toNat % 2 ^ 32
  let u1 := u.toNat / 2 ^ 32
  let v0 := v.toNat % 2 ^ 32
  let v1 := v.toNat / 2 ^ 32
  let p00 := u0 * v0
  let p01 := u0 * v1
  let p10 := u1 * v0
  let p11 := u1 * v1
  let mid := p00 / 2 ^ 32 + p01 % 2 ^ 32 + p10 % 2 ^ 32
  (BitVec.ofNat 32 mid ++ BitVec.ofNat 32 p00,
    BitVec.ofNat 64 (p11 + p01 / 2 ^ 32 + p10 / 2 ^ 32 + mid / 2 ^ 32))

end Sys2Proof.Machine
end

