-- ==== Sys2Proof/Machine/Script.lean ====
section
/-! DEFINITION. The lines of a host script and the pseudo-operations with their expansions
(30_encoding R102, R103). The `mem` line "is not an operation": it says what `mem` holds. -/

namespace Sys2Proof.Machine

/-- The register names of 30_encoding R92. -/
def regCmd : RegNum := 0
def regStatus : RegNum := 1
def regArg0 : RegNum := 2
def regArg1 : RegNum := 3
def regArg2 : RegNum := 4
def regRes0 : RegNum := 5
def regRes1 : RegNum := 6
def regP1 : RegNum := 7
def regP2 : RegNum := 8

/-- `wr <reg>, <value>`. -/
def lineWr (n : RegNum) (v : Word) : HostOp := .request (writeRequest n v)

/-- `rd <reg>`. -/
def lineRd (n : RegNum) : HostOp := .request (readRequest n)

/-- `mul`: `wr CMD, 0x1`. -/
def lineMul : HostOp := lineWr regCmd 0x1

/-- `hash`: `wr CMD, 0x1A`. -/
def lineHash : HostOp := lineWr regCmd 0x1A

/-- `hash.d`: `wr CMD, 0xA`. -/
def lineHashD : HostOp := lineWr regCmd 0xA

/-- `hash.n`: `wr CMD, 0x12`. -/
def lineHashN : HostOp := lineWr regCmd 0x12

/-- `hash.nd`: `wr CMD, 0x2`. -/
def lineHashNd : HostOp := lineWr regCmd 0x2

/-- `pnext`: `wr CMD, 0x3`. -/
def linePnext : HostOp := lineWr regCmd 0x3

/-- `mul64 u, v`. -/
def scriptMul64 (u v : Word) : List HostOp :=
  [lineWr regArg0 u, lineWr regArg1 v, lineMul, .wait, lineRd regRes0, lineRd regRes1]

/-- `hash64 ptr, len, seed`. -/
def scriptHash64 (ptr len seed : Word) : List HostOp :=
  [lineWr regArg0 ptr, lineWr regArg1 len, lineWr regArg2 seed, lineHash, .wait, lineRd regRes0]

/-- `hash64 ptr, len`. -/
def scriptHash64D (ptr len : Word) : List HostOp :=
  [lineWr regArg0 ptr, lineWr regArg1 len, lineHashD, .wait, lineRd regRes0]

/-- `hash64 none, 0, seed`. -/
def scriptHash64N (seed : Word) : List HostOp :=
  [lineWr regArg1 0, lineWr regArg2 seed, lineHashN, .wait, lineRd regRes0]

/-- `seed a, b`. -/
def scriptSeed (a b : Word) : List HostOp := [lineWr regP1 a, lineWr regP2 b]

/-- `next`. -/
def scriptNext : List HostOp := [linePnext, .wait, lineRd regRes0]

end Sys2Proof.Machine
end

