-- ==== Sys2Proof/Safety.lean ====
section
/-! DEFINITION. The terms that claims use: the invariant of the whole machine, the values of the round
constants during a `HASH`, and where a message stands in memory. -/

namespace Sys2Proof.Machine

/-- The checks of `H_CHECK` pass for the command in `CMDL` (42_digest_engine R172). -/
def State.checksPass (s : State) : Prop :=
  s.arg1 = 0 ∨ (s.bp = true ∧ s.arg0.toNat + s.arg1.toNat ≤ s.inst.memSize)

/-- The latch holds a `HASH` command (10_state R33). -/
def State.hashLatched (s : State) : Prop := s.cmdl.extractLsb' 0 3 = 2

/-- A `HASH` command runs and its checks have passed. -/
def State.hashChecked (s : State) : Prop := s.hashLatched ∧ s.checksPass

/-- The cursor stands where `H_INIT` put it (10_state R24). -/
def State.cursorAtStart (s : State) : Prop := s.cur = truncAddr s.inst s.arg0 ∧ s.rem = s.arg1

/-- In the bulk loop the cursor has advanced by whole blocks of 16, and what remains ends where the
message ends (42_digest_engine R188). -/
def State.cursorInLoop (s : State) : Prop :=
  s.arg0.toNat ≤ s.cur.toNat ∧ (s.cur.toNat - s.arg0.toNat) % 16 = 0 ∧
    s.cur.toNat + s.rem.toNat = s.arg0.toNat + s.arg1.toNat

/-- What each phase may rely on, phase by phase (42_digest_engine R174, R176, R186, R188). -/
def State.factsAt (s : State) : Phase → Prop
  | .idle => True
  | .mulX => s.cmdl = 1
  | .prngX => s.cmdl = 3
  | .hCheck => s.hashLatched
  | .hInit => s.hashChecked
  | .hSeed => s.hashChecked ∧ s.cursorAtStart
  | .hSelect => s.hashChecked ∧ s.cursorAtStart
  | .hShort => s.hashChecked ∧ s.cursorAtStart ∧ s.len ≤ 3
  | .hMid => s.hashChecked ∧ s.cursorAtStart ∧ 4 ≤ s.len ∧ s.len ≤ 16
  | .hLong => s.hashChecked ∧ s.cursorAtStart ∧ 17 ≤ s.len
  | .hBulkLd => s.hashChecked ∧ s.cursorInLoop ∧ 17 ≤ s.len ∧ 16 < s.rem.toNat
  | .hBulkMx => s.hashChecked ∧ s.cursorInLoop ∧ 17 ≤ s.len ∧ 16 < s.rem.toNat
  | .hTail =>
    s.hashChecked ∧ s.cursorInLoop ∧ 17 ≤ s.len ∧ 1 ≤ s.rem.toNat ∧ s.rem.toNat ≤ 16 ∧
      s.arg0.toNat + 16 ≤ s.cur.toNat
  | .hFin1 => s.hashChecked
  | .hFin2 => s.hashChecked
  | .fault => True

/-- What every run keeps: the memory's one form, what `STATUS` can say (10_state R29), and what each
phase may rely on. -/
structure State.Inv (s : State) : Prop where
  /-- `ADDR_W` is 1 to 64 (00_scope R7). -/
  params : s.inst.legal = true
  /-- Message memory has its one form. -/
  memory : memWf s.mem = true
  /-- No byte is backed outside the `2^ADDR_W` addresses (20_memory R60). -/
  memoryFits : memWithin s.inst.memSize s.mem = true
  /-- "`DONE` = 1 implies `BUSY` = 0 and `FAULT` = 0" (10_state R29). -/
  doneIdle : s.done = true → s.phase = .idle
  /-- `CAUSE` is not 0 exactly in the fault state (60_exceptions R261, R262). -/
  causeFault : s.cause = .noFault ↔ s.phase ≠ .fault
  /-- `CUR` is an `ADDR_W`-bit address (10_state R24). -/
  cursorFits : s.cur.toNat < s.inst.memSize
  /-- The one host has at most one write waiting (44_host_port R244, log 12). -/
  oneWaiting : s.waiting.length ≤ 1
  phaseFacts : s.factsAt s.phase

/-- The round constants and the seeded pair as functions of `LEN` and `SEED` alone, phase by phase
(41_mix_unit R150). -/
def State.constantsAt (s : State) : Phase → Prop
  | .idle => True
  | .mulX => True
  | .prngX => True
  | .hCheck => True
  | .hInit => True
  | .hSeed => s.s1 = iv1 ^^^ s.arg1 ∧ s.s2 = iv2 ^^^ s.arg1 ∧ s.ma = val01 ∧ s.mb = val10
  | .hSelect => (s.s1, s.s2) = seedProduct s.arg1 s.seed ∧ s.ma = val01 ∧ s.mb = val10 ^^^ s.s2
  | .hShort => s.ma = val01 ∧ s.mb = val10 ^^^ (seedProduct s.arg1 s.seed).2
  | .hMid => s.ma = val01 ∧ s.mb = val10 ^^^ (seedProduct s.arg1 s.seed).2
  | .hLong => (s.s1, s.s2) = seedProduct s.arg1 s.seed ∧ s.ma = val01 ∧ s.mb = val10 ^^^ s.s2
  | .hBulkLd | .hBulkMx | .hTail =>
    s.ma = val01 ^^^ (seedProduct s.arg1 s.seed).1 ∧ s.mb = val10 ^^^ (seedProduct s.arg1 s.seed).2
  | .hFin1 | .hFin2 =>
    s.ma = (if s.len ≤ 16 then val01 else val01 ^^^ (seedProduct s.arg1 s.seed).1) ∧
      s.mb = val10 ^^^ (seedProduct s.arg1 s.seed).2
  | .fault => True

/-- The round constants stand as 41_mix_unit R150 says. -/
def State.RoundConstants (s : State) : Prop := s.constantsAt s.phase

/-- Message memory holds `msg` at addresses `ptr`, `ptr + 1`, ... (00_scope R14, "Message"). -/
def State.holdsMessage (s : State) (ptr : Nat) (msg : List Byte) : Prop :=
  ∀ i (h : i < msg.length), memRead s.mem (ptr + i) = some msg[i]

/-- `k` steps, up to the first stop. -/
def run : Nat → State → Out
  | 0, s => .next s
  | k + 1, s =>
    match step s with
    | .next t => run k t
    | .fault r => .fault r
    | .refused r => .refused r

/-- The step resets the block: a reset turn, or a host step whose script line is `reset`
(70_reset R300, 30_encoding R102). -/
def State.resetNext (s : State) : Bool :=
  let lineIsReset := s.waiting.isEmpty && s.script.head? == some .reset
  match s.turns with
  | .reset :: _ => true
  | .host :: _ => lineIsReset
  | .core :: _ => false
  | [] => !coreReady s && lineIsReset

/-- The next state of an outcome under `f`; a stop stays as it is. -/
def mapNext (f : State → State) : Out → Out
  | .next s => .next (f s)
  | .fault r => .fault r
  | .refused r => .refused r

/-- The fourteen micro-operations, as against the commands and port transactions (30_encoding R90). -/
def isMicroOp : Instr → Bool
  | .mul | .hash _ _ | .pnext | .rd _ | .wr _ _ => false
  | .mulX | .prngX | .hCheck | .hInit | .hSeed | .hSelect | .hShort | .hMid | .hLong | .hBulkLd
  | .hBulkMx | .hTail | .hFin1 | .hFin2 => true

/-- The instructions that issue a command: the command rows, and a write of `CMD` (44_host_port R247). -/
def issuesCommand : Instr → Bool
  | .mul | .hash _ _ | .pnext => true
  | .wr n _ => n == 0
  | .rd _ | .mulX | .prngX | .hCheck | .hInit | .hSeed | .hSelect | .hShort | .hMid | .hLong
  | .hBulkLd | .hBulkMx | .hTail | .hFin1 | .hFin2 => false

/-- The number that `STATUS` is, field by field (10_state R29). -/
def State.statusNat (s : State) : Nat :=
  16 * (match s.cause with | .noFault => 0 | .nullBuf => 1 | .illegal => 2 | .range => 3) +
    (if s.phase = .fault then 4 else 0) + (if s.done then 2 else 0) +
    (if s.phase = .idle ∨ s.phase = .fault then 0 else 1)

end Sys2Proof.Machine
end

