-- ==== Sys2Proof/Certificates/Slice0/Obligations.lean ====
section
/-! DEFINITION. The statements for the provers, in the order of OBLIGATIONS.json. A docstring says which
rule of spec/ a statement formalises, and where it rests on a choice or an inference. -/

open Sys2Proof Sys2Proof.Machine

/-! ### Encodings -/

/-- Decode and encode agree: every instruction, with every operand at every value its encoding admits,
is read back (30_encoding R91, R93, R94, R100). -/
def Obligations.DecodeOfEncodeIsTheInstruction : Prop :=
  ∀ i : Instr, decode (encode i) = .ok i

/-- The other direction: an encoded thing that decodes is the encoding of what it decodes to, so no bit
of a command word, a header or a phase code is ignored (30_encoding R91, R93, R98, R100). -/
def Obligations.EncodeOfDecodeIsTheEncodedThing : Prop :=
  ∀ (e : Encoded) (i : Instr), decode e = .ok i → encode i = e

/-- 30_encoding R94: the six legal words, and the match and mask of each row. -/
def Obligations.LegalCommandWordsAreExactlySix : Prop :=
  decodeCommand 0x1 = some .mul ∧ decodeCommand 0x2 = some (.hash false false) ∧
  decodeCommand 0xA = some (.hash true false) ∧ decodeCommand 0x12 = some (.hash false true) ∧
  decodeCommand 0x1A = some (.hash true true) ∧ decodeCommand 0x3 = some .pnext ∧
  (∀ w, w ≠ 0x1 → w ≠ 0x2 → w ≠ 0xA → w ≠ 0x12 → w ≠ 0x1A → w ≠ 0x3 → decodeCommand w = none) ∧
  (∀ w, decodeCommand w = some .mul ↔ w &&& 0xFFFFFFFFFFFFFFFF = 0x1) ∧
  (∀ w, decodeCommand w = some .pnext ↔ w &&& 0xFFFFFFFFFFFFFFFF = 0x3) ∧
  (∀ w, (∃ bp sv, decodeCommand w = some (.hash bp sv)) ↔ w &&& 0xFFFFFFFFFFFFFFE7 = 0x2)

/-- Words written out from 30_encoding R91, R94 and R100 decode to what they stand for. -/
def Obligations.SampleWordsDecode : Prop :=
  decode (.command 0x000000000000001A) = .ok (.hash true true) ∧
  decode (.command 0x0000000000000003) = .ok .pnext ∧
  decode (.command 0x0000000000000009) = .error .illegalCommand ∧
  decode (.port ⟨0b00101, none⟩) = .ok (.rd 5) ∧
  decode (.port ⟨0b10011, some 33⟩) = .ok (.wr 3 33) ∧
  decode (.phase 0b0001) = .ok .mulX ∧ decode (.phase 0b1011) = .ok .hBulkMx ∧
  decode (.phase 0b1111) = .error .noMicroOperation

/-! ### The step runs what it decodes -/

/-- A core step runs the micro-operation that the code in `PHASE` decodes to (10_state R36), unless a
read of it has no answer (20_memory R73; that case is UnansweredReadTakesOnlyTheCoresStep): with the
turn set, only the turn is used up besides; with no turn set the core moves first, which is the model's
choice (log 3), and the step is that and nothing else. -/
def Obligations.CoreStepRunsTheDecodedPhase : Prop :=
  ∀ (s : State) (i : Instr), decode (.phase s.phase.code) = .ok i →
    (s.turns = [] → exec i s ≠ .fault .memoryUnanswered → step s = exec i s) ∧
    (∀ gs, s.turns = .core :: gs → exec i { s with turns := gs } ≠ .fault .memoryUnanswered →
      step s = exec i { s with turns := gs })

/-- A host step runs the instruction that the port request at the head of the script decodes to, nothing
waiting before it: besides, the line leaves the script and the turn is used up. With no turn set the
host moves when the core has no step (the order of the agents is the model's, log 3). -/
def Obligations.HostStepRunsTheDecodedRequest : Prop :=
  ∀ (s : State) (r : PortRequest) (i : Instr) (ops : List HostOp),
    s.waiting = [] → s.script = .request r :: ops → decode (.port r) = .ok i →
    (∀ gs, s.turns = .host :: gs → step s = exec i { s with script := ops, turns := gs }) ∧
    (s.turns = [] → coreReady s = false → step s = exec i { s with script := ops })

/-- Whatever is put where the machine takes its next instruction from is what the very next step runs;
only `PHASE` and the port stand as that takes (the model's own interface, log 11). A load phase whose
read has no answer is no step (20_memory R73): then the turn passes, and with no turn set the host
moves if it can, and else the machine is stuck. -/
def Obligations.FetchedThingIsRunByTheNextStep : Prop :=
  ∀ (s u : State) (e : Encoded) (i : Instr), decode e = .ok i →
    u = { s with phase := (s.withEncoded e).phase, waiting := (s.withEncoded e).waiting } →
    (exec i u ≠ .fault .memoryUnanswered → step (s.withEncoded e) = exec i u) ∧
    (exec i u = .fault .memoryUnanswered →
      (s.turns ≠ [] → step (s.withEncoded e) = .next u) ∧
      (s.turns = [] → step (s.withEncoded e) =
        if hostReady u then hostStep u else .fault .memoryUnanswered))

/-! ### Reset -/

/-- What reset leaves, of every state, whether a reset turn or the `reset` line of the host's script
causes it (10_state R39, 70_reset R300, R301, R302, 30_encoding R102): the values the spec gives, every
host register reads 0, nothing waits at the port, message memory and the parameters are not touched. The
working registers, to which the spec gives no value, are not part of this statement. That the rest of
the script, its results and the turns stay is the model's inference (log 20). -/
def Obligations.ResetLeavesTheStatedValues : Prop :=
  ∀ s : State, s.resetNext = true →
    ∃ t, step s = .next t ∧ t.phase = .idle ∧ t.cmdl = 0 ∧ t.done = false ∧ t.cause = .noFault ∧
      t.arg0 = 0 ∧ t.arg1 = 0 ∧ t.arg2 = 0 ∧ t.res0 = 0 ∧ t.res1 = 0 ∧ t.p1 = 0 ∧ t.p2 = 0 ∧
      (∀ n, exec (.rd n) t = .next { t with results := t.results ++ [0] }) ∧
      t.waiting = [] ∧ t.mem = s.mem ∧ t.readLog = s.readLog ∧ t.inst = s.inst ∧
      t.results = s.results ∧ t.turns = s.turns.tail ∧
      (s.turns.head? = some .reset → t.script = s.script) ∧
      (s.turns.head? ≠ some .reset → s.script = .reset :: t.script)

/-- 60_exceptions R267, 70_reset R300: only reset leaves the fault state, and until then the cause, the
status and every register stay as they are. -/
def Obligations.OnlyResetLeavesTheFaultState : Prop :=
  ∀ s t : State, s.phase = .fault → step s = .next t →
    (s.resetNext = true ∧ t.phase = .idle ∧ t.cause = .noFault ∧ t.p1 = 0 ∧ t.p2 = 0) ∨
    (s.resetNext = false ∧
      t = { s with waiting := t.waiting, script := t.script, results := t.results,
                   mem := t.mem, turns := t.turns })

/-! ### Invariants -/

/-- The state after reset meets both invariants. -/
def Obligations.ResetMeetsTheInvariants : Prop :=
  State.reset.Inv ∧ State.reset.RoundConstants

/-- Every step of every agent keeps the invariant: memory in its one form and inside the address space,
`DONE` only when idle, a cause exactly in the fault state, the cursor inside the message. -/
def Obligations.EveryStepKeepsTheInvariant : Prop :=
  ∀ s t : State, s.Inv → step s = .next t → t.Inv

/-- 41_mix_unit R150 (derived there from R142 to R144): in every phase of a `HASH` the round constants
are the functions of `LEN` and `SEED` alone that the rule gives. -/
def Obligations.EveryStepKeepsTheRoundConstants : Prop :=
  ∀ s t : State, s.Inv → s.RoundConstants → step s = .next t → t.RoundConstants

/-- 10_state R37, 20_memory R65: the parameters of the instance are switched by nothing. -/
def Obligations.NoStepChangesTheParameters : Prop :=
  ∀ s t : State, step s = .next t → t.inst = s.inst

/-! ### The host port -/

/-- 44_host_port R241, 30_encoding R92, 10_state R29: what a read of each register number gives. A read
is taken in every phase and changes nothing of the block. -/
def Obligations.ReadGivesTheNamedRegister : Prop :=
  ∀ (s : State) (n : RegNum), ∃ v : Word,
    exec (.rd n) s = .next { s with results := s.results ++ [v] } ∧
    (n = 0 → v = 0) ∧ (n = 1 → v.toNat = s.statusNat) ∧
    (n = 2 → v = s.arg0) ∧ (n = 3 → v = s.arg1) ∧ (n = 4 → v = s.arg2) ∧
    (n = 5 → v = s.res0) ∧ (n = 6 → v = s.res1) ∧ (n = 7 → v = s.p1) ∧ (n = 8 → v = s.p2) ∧
    (9 ≤ n.toNat → v = 0)

/-- The values of `STATUS` that a host can read (10_state R29; 95_test_vectors V8, "No other value can
be read"). -/
def Obligations.StatusIsOneOfSixValues : Prop :=
  ∀ s : State, s.Inv →
    (s.busy = true → s.status = 0x1) ∧ (s.busy = false → s.done = true → s.status = 0x2) ∧
    (s.status = 0x0 ∨ s.status = 0x1 ∨ s.status = 0x2 ∨ s.status = 0x14 ∨ s.status = 0x24 ∨
      s.status = 0x34)

/-- 44_host_port R243 and R246, for the numbers other than `CMD`: what a taken write stores, and that a
write of a read-only or reserved number changes nothing. -/
def Obligations.TakenWriteStoresTheWholeValue : Prop :=
  ∀ (s : State) (v : Word), s.phase = .idle →
    exec (.wr 2 v) s = .next { s with arg0 := v } ∧ exec (.wr 3 v) s = .next { s with arg1 := v } ∧
    exec (.wr 4 v) s = .next { s with arg2 := v } ∧ exec (.wr 7 v) s = .next { s with p1 := v } ∧
    exec (.wr 8 v) s = .next { s with p2 := v } ∧
    (∀ n : RegNum, n = 1 ∨ n = 5 ∨ n = 6 ∨ 9 ≤ n.toNat → exec (.wr n v) s = .next s)

/-- 44_host_port R247: command accept. A legal word starts its command; any other word raises `ILLEGAL`
in the same step (60_exceptions R264). -/
def Obligations.CommandAcceptStartsOrFaults : Prop :=
  ∀ (s : State) (w : Word), s.phase = .idle →
    (w = 0x1 → exec (.wr 0 w) s = .next { s with cmdl := 0b00001, done := false, phase := .mulX }) ∧
    (w = 0x3 → exec (.wr 0 w) s = .next { s with cmdl := 0b00011, done := false, phase := .prngX }) ∧
    (w = 0x2 ∨ w = 0xA ∨ w = 0x12 ∨ w = 0x1A → exec (.wr 0 w) s =
      .next { s with cmdl := BitVec.ofNat 5 w.toNat, done := false, phase := .hCheck }) ∧
    (w ≠ 0x1 → w ≠ 0x2 → w ≠ 0xA → w ≠ 0x12 → w ≠ 0x1A → w ≠ 0x3 → exec (.wr 0 w) s =
      .next { s with cmdl := BitVec.ofNat 5 w.toNat, done := false, cause := .illegal,
                     phase := .fault })

/-- The command rows: issued to an idle block, each is accepted (30_encoding R94, R102, 44_host_port
R247, 10_state R33). -/
def Obligations.CommandsAreAcceptedByAnIdleBlock : Prop :=
  ∀ s : State, s.phase = .idle →
    exec .mul s = .next { s with cmdl := 0b00001, done := false, phase := .mulX } ∧
    exec .pnext s = .next { s with cmdl := 0b00011, done := false, phase := .prngX } ∧
    (∀ bp sv : Bool, ∃ t, exec (.hash bp sv) s = .next t ∧
      t = { s with cmdl := t.cmdl, done := false, phase := .hCheck } ∧
      t.cmdl.extractLsb' 0 3 = 2 ∧ t.bp = bp ∧ t.sv = sv)

/-- 44_host_port R244: a write of any number that meets a block that is not idle waits and has no other
effect; the host then has no step until the block is idle; then the write is taken. -/
def Obligations.WriteWaitsUntilTheBlockIsIdle : Prop :=
  (∀ (s : State) (n : RegNum) (v : Word), s.phase ≠ .idle →
    exec (.wr n v) s = .next { s with waiting := s.waiting ++ [⟨n, v⟩] }) ∧
  (∀ (s : State) (w : PortWrite) (ws : List PortWrite) (gs : List Agent), s.waiting = w :: ws →
    s.turns = .host :: gs → s.phase ≠ .idle → step s = .next { s with turns := gs }) ∧
  (∀ (s : State) (w : PortWrite) (ws : List PortWrite) (gs : List Agent), s.waiting = w :: ws →
    s.turns = .host :: gs → s.phase = .idle →
      step s = exec (.wr w.reg w.value) { s with waiting := ws, turns := gs })

/-- 44_host_port R248: `DONE` rises only in the last step of a command, with the results in place. -/
def Obligations.DoneRisesOnlyOnCompletion : Prop :=
  ∀ s t : State, step s = .next t → s.done = false → t.done = true →
    (s.phase = .mulX ∨ s.phase = .prngX ∨ s.phase = .hFin2) ∧ t.phase = .idle

/-- 10_state R28: a result register "is written in the completing step of its command and at no other
time" (reset apart). -/
def Obligations.ResultsChangeOnlyInCompletingSteps : Prop :=
  ∀ s t : State, s.resetNext = false → step s = .next t →
    (t.res0 ≠ s.res0 → s.phase = .mulX ∨ s.phase = .prngX ∨ s.phase = .hFin2) ∧
    (t.res1 ≠ s.res1 → s.phase = .mulX)

/-- 10_state R27, R26 and 44_host_port R244: while a command runs no step changes an operand register,
the command latch or, `PNEXT` apart, a generator cell (reset apart). -/
def Obligations.OperandsStandStillWhileBusy : Prop :=
  ∀ s t : State, s.busy = true → s.resetNext = false → step s = .next t →
    t.arg0 = s.arg0 ∧ t.arg1 = s.arg1 ∧ t.arg2 = s.arg2 ∧ t.cmdl = s.cmdl ∧
    (s.phase ≠ .prngX → t.p1 = s.p1 ∧ t.p2 = s.p2)

/-- 60_exceptions R269: the three level outputs equal bits 0, 1 and 2 of `STATUS` at all times. -/
def Obligations.LevelOutputsMirrorStatus : Prop :=
  ∀ s : State, s.outputs = (s.status.getLsbD 0, s.status.getLsbD 1, s.status.getLsbD 2)

/-! ### The multiplier and the generator -/

/-- 40_multiplier R126: the accept and the step of `mul`; the two results make the exact product, and
nothing else changes. -/
def Obligations.MulWritesTheExactProduct : Prop :=
  (∀ s : State, s.phase = .idle →
    exec .mul s = .next { s with cmdl := 0b00001, done := false, phase := .mulX }) ∧
  (∀ s : State, ∃ t, exec .mulX s = .next t ∧
    t.res1.toNat * 2 ^ 64 + t.res0.toNat = s.arg0.toNat * s.arg1.toNat ∧
    t = { s with res0 := t.res0, res1 := t.res1, done := true, phase := .idle })

/-- 40_multiplier R122, the eight laws (derived there from R120). -/
def Obligations.ProductLaws : Prop :=
  (∀ u v, mulFull u v = mulFull v u) ∧
  (∀ u, mulFull 0 u = (0, 0) ∧ mulFull u 0 = (0, 0)) ∧
  (∀ v, mulFull 1 v = (v, 0)) ∧
  mulFull 0xFFFFFFFFFFFFFFFF 0xFFFFFFFFFFFFFFFF = (0x1, 0xFFFFFFFFFFFFFFFE) ∧
  (∀ u v, (mulFull u v).2.toNat ≤ 2 ^ 64 - 2 ∧
    ((mulFull u v).2.toNat = 2 ^ 64 - 2 → u = 0xFFFFFFFFFFFFFFFF ∧ v = 0xFFFFFFFFFFFFFFFF)) ∧
  (∀ a b : Nat, a ≤ 63 → b ≤ 63 → mulFull (BitVec.ofNat 64 (2 ^ a)) (BitVec.ofNat 64 (2 ^ b)) =
    if a + b ≤ 63 then (BitVec.ofNat 64 (2 ^ (a + b)), 0)
    else (0, BitVec.ofNat 64 (2 ^ (a + b - 64)))) ∧
  (∀ u v, mulFull u v = (0, 0) ↔ u = 0 ∨ v = 0) ∧
  (∀ u v, (mulFull u v).1.toNat % 2 = 1 ↔ u.toNat % 2 = 1 ∧ v.toNat % 2 = 1)

/-- 40_multiplier R124: the 32×32 schoolbook decomposition is the product (derived there from R120). -/
def Obligations.SchoolbookIsTheProduct : Prop := ∀ u v : Word, schoolbook u v = mulFull u v

/-- 43_prng_stepper R222: the accept and the step of `pnext`, with the constants of 10_state R31 written
out; the additions wrap, the halves of the exact product become the cells, and nothing else changes. -/
def Obligations.PnextStepsTheCells : Prop :=
  (∀ s : State, s.phase = .idle →
    exec .pnext s = .next { s with cmdl := 0b00011, done := false, phase := .prngX }) ∧
  (∀ s : State, ∃ t, exec .prngX s = .next t ∧
    t.p2.toNat * 2 ^ 64 + t.p1.toNat =
      ((s.p1.toNat + 0x5555555555555555) % 2 ^ 64) * ((s.p2.toNat + 0xAAAAAAAAAAAAAAAA) % 2 ^ 64) ∧
    t.res0 = t.p1 ^^^ t.p2 ∧
    t = { s with p1 := t.p1, p2 := t.p2, res0 := t.res0, done := true, phase := .idle })

/-- 43_prng_stepper R225, R226 (derived there): when the cells become `(0, 0)`, and that they never are
after two consecutive steps. -/
def Obligations.GeneratorNeverStaysAtZero : Prop :=
  ∀ s t : State, exec .prngX s = .next t →
    (t.p1 = 0 ∧ t.p2 = 0 ↔ s.p1 = 0xAAAAAAAAAAAAAAAB ∨ s.p2 = 0x5555555555555556) ∧
    (∀ u, exec .prngX t = .next u → t.p1 = 0 ∧ t.p2 = 0 → ¬(u.p1 = 0 ∧ u.p2 = 0))

/-- 43_prng_stepper R224: the accept of `mul` and `hash` and all their phases neither read nor write the
cells; what `pnext` does depends on the cells alone, and it writes no working register, no operand
register and not `RES1`. -/
def Obligations.GeneratorAndDigestAreIndependent : Prop :=
  (∀ (i : Instr) (s : State) (a b : Word),
    (isMicroOp i = true ∧ i ≠ .prngX) ∨ i = .mul ∨ (∃ bp sv, i = .hash bp sv) →
    exec i { s with p1 := a, p2 := b } = mapNext (fun t => { t with p1 := a, p2 := b }) (exec i s) ∧
    ∀ t, exec i s = .next t → t.p1 = s.p1 ∧ t.p2 = s.p2) ∧
  (∀ s s' t t' : State, s.p1 = s'.p1 → s.p2 = s'.p2 → exec .prngX s = .next t →
    exec .prngX s' = .next t' → t.p1 = t'.p1 ∧ t.p2 = t'.p2 ∧ t.res0 = t'.res0) ∧
  (∀ s t : State, exec .prngX s = .next t →
    t = { s with p1 := t.p1, p2 := t.p2, res0 := t.res0, done := true, phase := .idle })

/-! ### The micro-operations of the digest -/

/-- 42_digest_engine R172: the checks, in their order, and that a fault writes `CAUSE` and `PHASE`
only. -/
def Obligations.CheckPassesOrFaults : Prop :=
  ∀ s : State,
    (s.arg1 ≠ 0 → s.cmdl.getLsbD 3 = false →
      exec .hCheck s = .next { s with cause := .nullBuf, phase := .fault }) ∧
    (s.arg1 ≠ 0 → s.cmdl.getLsbD 3 = true → 2 ^ s.inst.addrW < s.arg0.toNat + s.arg1.toNat →
      exec .hCheck s = .next { s with cause := .range, phase := .fault }) ∧
    (s.arg1 = 0 ∨ (s.cmdl.getLsbD 3 = true ∧ s.arg0.toNat + s.arg1.toNat ≤ 2 ^ s.inst.addrW) →
      exec .hCheck s = .next { s with phase := .hInit })

/-- 41_mix_unit R142: initialisation; `CUR` keeps the low `ADDR_W` bits of `ARG0`. The values of `IV1`
and `IV2` are general knowledge by the spec's own mark (10_state R30, log 15). -/
def Obligations.InitSetsThePairAndTheCursor : Prop :=
  ∀ s : State, ∃ t, exec .hInit s = .next t ∧
    t.s1 = 0x243F6A8885A308D3 ^^^ s.arg1 ∧ t.s2 = 0x452821E638D01377 ^^^ s.arg1 ∧
    t.ma = 0x5555555555555555 ∧ t.mb = 0xAAAAAAAAAAAAAAAA ∧
    t.cur.toNat = s.arg0.toNat % 2 ^ s.inst.addrW ∧ t.rem = s.arg1 ∧
    t = { s with s1 := t.s1, s2 := t.s2, ma := t.ma, mb := t.mb, cur := t.cur, rem := t.rem,
                 phase := .hSeed }

/-- 41_mix_unit R143 with 30_encoding R96: seed injection. -/
def Obligations.SeedIsInjectedThroughTheMasks : Prop :=
  ∀ (s : State) (seed : Word), seed = (if s.cmdl.getLsbD 4 = true then s.arg2 else 0) →
    ∃ t, exec .hSeed s = .next t ∧
      t.s2.toNat * 2 ^ 64 + t.s1.toNat =
        (s.s2 ^^^ (seed &&& s.mb)).toNat * (s.s1 ^^^ (seed &&& s.ma)).toNat ∧
      t.mb = s.mb ^^^ t.s2 ∧
      t = { s with s1 := t.s1, s2 := t.s2, mb := t.mb, phase := .hSelect }

/-- 42_digest_engine R176: the path is chosen from `LEN` alone, unsigned. -/
def Obligations.PathIsChosenByLength : Prop :=
  ∀ s : State,
    (s.arg1.toNat ≤ 3 → exec .hSelect s = .next { s with phase := .hShort }) ∧
    (4 ≤ s.arg1.toNat → s.arg1.toNat ≤ 16 → exec .hSelect s = .next { s with phase := .hMid }) ∧
    (17 ≤ s.arg1.toNat → exec .hSelect s = .next { s with phase := .hLong })

/-- 42_digest_engine R180: the short path's lane, byte by byte, its reads in their order. -/
def Obligations.ShortLaneIsBuiltByteByByte : Prop :=
  ∀ (s : State) (msg : List Byte), msg.length = s.arg1.toNat → msg.length ≤ 3 →
    (s.arg1 ≠ 0 → s.cur.toNat + msg.length ≤ s.inst.memSize) → s.holdsMessage s.cur.toNat msg →
    ∃ t, exec .hShort s = .next t ∧
      t.la.toNat = (msg.getD 0 0).toNat + 2 ^ 8 * (msg.getD 1 0).toNat + 2 ^ 16 * (msg.getD 2 0).toNat ∧
      t.lb = 0 ∧
      t.readLog = s.readLog ++ (List.range msg.length).map (fun i => ⟨s.cur.toNat + i, 1⟩) ∧
      t = { s with la := t.la, lb := t.lb, readLog := t.readLog, phase := .hFin1 }

/-- 42_digest_engine R182: the mid path's lanes from four windows. That the front interior window is the
high half of lane `b` is the spec's own inference (93 G2, log 15). -/
def Obligations.MidLanesAreFourWindows : Prop :=
  ∀ (s : State) (msg : List Byte) (o : Nat), msg.length = s.arg1.toNat → 4 ≤ msg.length →
    msg.length ≤ 16 → o = msg.length / 8 * 4 → s.cur.toNat + msg.length ≤ s.inst.memSize →
    s.holdsMessage s.cur.toNat msg →
    exec .hMid s = .next { s with
      la := (msgLane s.inst.byteOrder msg 0 4 <<< 32) |||
        msgLane s.inst.byteOrder msg (msg.length - 4) 4
      lb := (msgLane s.inst.byteOrder msg o 4 <<< 32) |||
        msgLane s.inst.byteOrder msg (msg.length - 4 - o) 4
      phase := .hFin1
      readLog := s.readLog ++ [⟨s.cur.toNat, 4⟩, ⟨s.cur.toNat + msg.length - 4, 4⟩,
        ⟨s.cur.toNat + o, 4⟩, ⟨s.cur.toNat + msg.length - 4 - o, 4⟩] }

/-- 41_mix_unit R144: the update of `MA`, and that it is done once: before the loop, not in it, and only
when `LEN` is 17 or more. Reset apart, `MA` changes in `H_INIT`, which makes it `VAL01`, and `H_LONG`
only, so that without `H_LONG` it stays `VAL01`; `H_LONG` hands on to the loop, and is entered from
`H_SELECT` only. -/
def Obligations.LongPathUpdatesMaOnce : Prop :=
  (∀ s : State, exec .hLong s = .next { s with ma := s.ma ^^^ s.s1, phase := .hBulkLd }) ∧
  (∀ s t : State, exec .hInit s = .next t → t.ma = 0x5555555555555555) ∧
  (∀ s t : State, s.resetNext = false → step s = .next t → t.ma ≠ s.ma →
    s.phase = .hInit ∨ s.phase = .hLong) ∧
  (∀ s t : State, step s = .next t → t.phase = .hLong →
    s.phase = .hLong ∨ (s.phase = .hSelect ∧ 17 ≤ s.arg1.toNat))

/-- 42_digest_engine R184: the two lanes of one bulk iteration, lower address first. -/
def Obligations.BulkLoadReadsTwoLanes : Prop :=
  ∀ (s : State) (x y : List Byte), x.length = 8 → y.length = 8 →
    s.cur.toNat + 16 ≤ s.inst.memSize → s.holdsMessage s.cur.toNat (x ++ y) →
    exec .hBulkLd s = .next { s with
      la := laneValue s.inst.byteOrder x, lb := laneValue s.inst.byteOrder y, phase := .hBulkMx
      readLog := s.readLog ++ [⟨s.cur.toNat, 8⟩, ⟨s.cur.toNat + 8, 8⟩] }

/-- 41_mix_unit R145 and 42_digest_engine R186, one step: the mixed pair with the round constants added
modulo `2^64`, the cursor 16 further, and the loop test on the new `REM`. It is entered only with `REM`
above 16 and the rest of the message inside memory (the invariant's phaseFacts). -/
def Obligations.BulkMixAddsTheRoundConstants : Prop :=
  ∀ s : State, s.inst.legal = true → 16 < s.rem.toNat → s.cur.toNat + s.rem.toNat ≤ s.inst.memSize →
    ∃ (t : State) (lo hi : Word), exec .hBulkMx s = .next t ∧
      hi.toNat * 2 ^ 64 + lo.toNat = (s.la ^^^ s.s1).toNat * (s.lb ^^^ s.s2).toNat ∧
      t.s1.toNat = (lo.toNat + s.ma.toNat) % 2 ^ 64 ∧ t.s2.toNat = (hi.toNat + s.mb.toNat) % 2 ^ 64 ∧
      t.cur.toNat = s.cur.toNat + 16 ∧ t.rem.toNat = s.rem.toNat - 16 ∧
      t.phase = (if 16 < t.rem.toNat then .hBulkLd else .hTail) ∧
      t = { s with s1 := t.s1, s2 := t.s2, cur := t.cur, rem := t.rem, phase := t.phase }

/-- 42_digest_engine R190: the final lanes are the last sixteen bytes, the earlier eight in `LA`. -/
def Obligations.TailReadsTheLastSixteenBytes : Prop :=
  ∀ (s : State) (a : Nat) (x y : List Byte), x.length = 8 → y.length = 8 →
    a + 16 = s.cur.toNat + s.rem.toNat → a + 16 ≤ s.inst.memSize → s.holdsMessage a (x ++ y) →
    exec .hTail s = .next { s with
      la := laneValue s.inst.byteOrder x, lb := laneValue s.inst.byteOrder y, phase := .hFin1
      readLog := s.readLog ++ [⟨a, 8⟩, ⟨a + 8, 8⟩] }

/-- 41_mix_unit R146: the first finalisation mix, no round constant added. -/
def Obligations.FirstFinalMix : Prop :=
  ∀ s : State, ∃ t, exec .hFin1 s = .next t ∧
    t.s2.toNat * 2 ^ 64 + t.s1.toNat = (s.s1 ^^^ s.la).toNat * (s.s2 ^^^ s.lb).toNat ∧
    t = { s with s1 := t.s1, s2 := t.s2, phase := .hFin2 }

/-- 41_mix_unit R147: the second finalisation mix and the digest; `RES1` is not written. -/
def Obligations.SecondFinalMixGivesTheDigest : Prop :=
  ∀ s : State, ∃ t, exec .hFin2 s = .next t ∧
    t.s2.toNat * 2 ^ 64 + t.s1.toNat = (s.s1 ^^^ s.ma).toNat * s.s2.toNat ∧
    t.res0 = t.s1 ^^^ t.s2 ∧
    t = { s with s1 := t.s1, s2 := t.s2, res0 := t.res0, done := true, phase := .idle }

/-- 20_memory R64: the value of a lane under each byte order, for the two widths. -/
def Obligations.LaneIsAssembledByByteOrder : Prop :=
  ∀ b0 b1 b2 b3 b4 b5 b6 b7 : Byte,
    (laneValue .little [b0, b1, b2, b3]).toNat =
      b0.toNat + b1.toNat * 2 ^ 8 + b2.toNat * 2 ^ 16 + b3.toNat * 2 ^ 24 ∧
    (laneValue .big [b0, b1, b2, b3]).toNat =
      b3.toNat + b2.toNat * 2 ^ 8 + b1.toNat * 2 ^ 16 + b0.toNat * 2 ^ 24 ∧
    (laneValue .little [b0, b1, b2, b3, b4, b5, b6, b7]).toNat =
      b0.toNat + b1.toNat * 2 ^ 8 + b2.toNat * 2 ^ 16 + b3.toNat * 2 ^ 24 + b4.toNat * 2 ^ 32 +
        b5.toNat * 2 ^ 40 + b6.toNat * 2 ^ 48 + b7.toNat * 2 ^ 56 ∧
    (laneValue .big [b0, b1, b2, b3, b4, b5, b6, b7]).toNat =
      b7.toNat + b6.toNat * 2 ^ 8 + b5.toNat * 2 ^ 16 + b4.toNat * 2 ^ 24 + b3.toNat * 2 ^ 32 +
        b2.toNat * 2 ^ 40 + b1.toNat * 2 ^ 48 + b0.toNat * 2 ^ 56

/-- 20_memory R73: a load phase that needs a byte the platform does not back has no answer; no bytes are
invented and the block's own fault is not raised. That a meaning without an answer is written as the
named stop memoryUnanswered is the model's choice (logs 2 and 21). -/
def Obligations.UnbackedByteStopsTheLoad : Prop :=
  ∀ (s : State) (a : Nat), memRead s.mem a = none →
    (s.arg1.toNat ≤ 3 → s.cur.toNat + s.arg1.toNat ≤ s.inst.memSize → s.cur.toNat ≤ a →
      a < s.cur.toNat + s.arg1.toNat → exec .hShort s = .fault .memoryUnanswered) ∧
    (4 ≤ s.arg1.toNat → s.arg1.toNat ≤ 16 → s.cur.toNat + s.arg1.toNat ≤ s.inst.memSize →
      s.cur.toNat ≤ a → a < s.cur.toNat + s.arg1.toNat → exec .hMid s = .fault .memoryUnanswered) ∧
    (s.cur.toNat + 16 ≤ s.inst.memSize → s.cur.toNat ≤ a → a < s.cur.toNat + 16 →
      exec .hBulkLd s = .fault .memoryUnanswered) ∧
    (16 ≤ s.cur.toNat + s.rem.toNat → s.cur.toNat + s.rem.toNat ≤ s.inst.memSize →
      s.cur.toNat + s.rem.toNat ≤ a + 16 → a < s.cur.toNat + s.rem.toNat →
      exec .hTail s = .fault .memoryUnanswered)

/-! ### Frames -/

/-- 20_memory R61: no instruction writes message memory; every address reads as before. -/
def Obligations.NoInstructionWritesMemory : Prop :=
  ∀ (i : Instr) (s t : State), exec i s = .next t → ∀ a, memRead t.mem a = memRead s.mem a

/-- 10_state R43, the write matrix (derived there), column by column: a register is unchanged by every
instruction whose cell is blank. `H_CHECK` that passes and accept of a legal word leave `CAUSE`, and a
write that has to wait changes no register at all (44_host_port R244). The last three clauses are the
fields outside the block. -/
def Obligations.WriteMatrix : Prop :=
  ∀ (i : Instr) (s t : State), exec i s = .next t →
    (isMicroOp i = false → issuesCommand i = false → t.phase = s.phase) ∧
    (issuesCommand i = false → t.cmdl = s.cmdl) ∧
    (issuesCommand i = false → i ≠ .mulX → i ≠ .prngX → i ≠ .hFin2 → t.done = s.done) ∧
    ((i = .hCheck → t.phase ≠ .fault) → (∀ w, i = .wr 0 w → decodeCommand w ≠ none) →
      t.cause = s.cause) ∧
    ((∀ v, i ≠ .wr 2 v) → t.arg0 = s.arg0) ∧ ((∀ v, i ≠ .wr 3 v) → t.arg1 = s.arg1) ∧
    ((∀ v, i ≠ .wr 4 v) → t.arg2 = s.arg2) ∧
    (i ≠ .mulX → i ≠ .prngX → i ≠ .hFin2 → t.res0 = s.res0) ∧
    (i ≠ .mulX → t.res1 = s.res1) ∧
    (i ≠ .prngX → (∀ v, i ≠ .wr 7 v) → t.p1 = s.p1) ∧
    (i ≠ .prngX → (∀ v, i ≠ .wr 8 v) → t.p2 = s.p2) ∧
    (i ≠ .hInit → i ≠ .hSeed → i ≠ .hBulkMx → i ≠ .hFin1 → i ≠ .hFin2 →
      t.s1 = s.s1 ∧ t.s2 = s.s2) ∧
    (i ≠ .hInit → i ≠ .hLong → t.ma = s.ma) ∧
    (i ≠ .hInit → i ≠ .hSeed → t.mb = s.mb) ∧
    (i ≠ .hShort → i ≠ .hMid → i ≠ .hBulkLd → i ≠ .hTail →
      t.la = s.la ∧ t.lb = s.lb ∧ t.readLog = s.readLog) ∧
    (i ≠ .hInit → i ≠ .hBulkMx → t.cur = s.cur ∧ t.rem = s.rem) ∧
    (isMicroOp i = false → s.phase ≠ .idle →
      t = { s with waiting := t.waiting, results := t.results }) ∧
    (isMicroOp i = true ∨ (∃ n, i = .rd n) ∨ s.phase = .idle → t.waiting = s.waiting) ∧
    ((∀ n, i ≠ .rd n) → t.results = s.results) ∧
    (t.inst = s.inst ∧ t.script = s.script ∧ t.turns = s.turns ∧ t.mem = s.mem)

/-- 20_memory R69: no step changes a byte of the message while its `HASH` command runs. The rule lays
this on the host; that the model's host holds such a change back is the model's choice (log 6). -/
def Obligations.MessageStandsStillWhileHashed : Prop :=
  ∀ (s t : State) (a : Nat), s.busy = true → s.hashLatched → s.arg0.toNat ≤ a →
    a < s.arg0.toNat + s.arg1.toNat → step s = .next t → memRead t.mem a = memRead s.mem a

/-- A byte that the host places is the byte read there, and no other byte changes (the script's `mem`
line, 30_encoding R102); a byte of the message that is being hashed has to wait (the model's choice,
log 6). -/
def Obligations.PlacedByteIsTheByteRead : Prop :=
  ∀ (s : State) (a : Nat) (b : Byte) (ops : List HostOp) (gs : List Agent), s.waiting = [] →
    s.turns = .host :: gs → s.script = .place a b :: ops → a < s.inst.memSize →
    (s.inMessage a = false →
      ∃ t, step s = .next t ∧ t = { s with script := ops, turns := gs, mem := t.mem } ∧
        ∀ x, memRead t.mem x = if x = a then some b else memRead s.mem x) ∧
    (s.inMessage a = true → step s = .next { s with turns := gs })

/-! ### Whole commands -/

/-- 42_digest_engine R193, R171, R175 (derived there): from `H_CHECK` with the checks passing and the
message in memory, exactly the stated number of core steps ends the command with `RES0` the digest, and
the registers that R171 says are unchanged are. No turn is set, so the core's steps follow one another
(log 3). -/
def Obligations.PassingHashGivesTheDigest : Prop :=
  ∀ (s : State) (msg : List Byte), s.inst.legal = true → s.phase = .hCheck → s.turns = [] →
    s.checksPass →
    msg.length = s.arg1.toNat → s.holdsMessage s.arg0.toNat msg →
    ∃ t, run (hashSteps msg.length) s = .next t ∧
      t.phase = .idle ∧ t.done = true ∧ t.res0 = hash64 s.inst.byteOrder msg s.seed ∧
      t.res1 = s.res1 ∧ t.p1 = s.p1 ∧ t.p2 = s.p2 ∧ t.arg0 = s.arg0 ∧ t.arg1 = s.arg1 ∧
      t.arg2 = s.arg2 ∧ t.cmdl = s.cmdl ∧ t.cause = s.cause ∧ t.mem = s.mem

/-- 20_memory R71 (derived there): the reads of a passing `HASH`, all of them and in their order. No turn
is set, so the core's steps follow one another (log 3), and the record of reads is the model's own field
(log 13). -/
def Obligations.PassingHashReadsExactlyTheListedBytes : Prop :=
  ∀ (s t : State) (msg : List Byte), s.inst.legal = true → s.phase = .hCheck → s.turns = [] →
    s.checksPass →
    msg.length = s.arg1.toNat → s.holdsMessage s.arg0.toNat msg →
    run (hashSteps msg.length) s = .next t →
    t.readLog = s.readLog ++ messageReads s.arg0.toNat msg.length

/-- 42_digest_engine R173: the digest is a function of the bytes, the length, the seed and the byte order
alone: two blocks that agree on these, wherever the message stands and whatever else they hold, end with
the same `RES0`. No turn is set in either, so each core's steps follow one another (log 3). -/
def Obligations.DigestDependsOnMessageSeedAndByteOrder : Prop :=
  ∀ (s s' : State) (msg : List Byte), s.inst.legal = true → s'.inst.legal = true →
    s.phase = .hCheck → s'.phase = .hCheck →
    s.turns = [] → s'.turns = [] → s.checksPass → s'.checksPass →
    msg.length = s.arg1.toNat → msg.length = s'.arg1.toNat →
    s.holdsMessage s.arg0.toNat msg → s'.holdsMessage s'.arg0.toNat msg →
    s.seed = s'.seed → s.inst.byteOrder = s'.inst.byteOrder →
    ∃ t t', run (hashSteps msg.length) s = .next t ∧
      run (hashSteps msg.length) s' = .next t' ∧ t.res0 = t'.res0

/-- 20_memory R65 (derived there): a message of at most three bytes has the same digest under both byte
orders. -/
def Obligations.ShortDigestsIgnoreTheByteOrder : Prop :=
  ∀ (msg : List Byte) (seed : Word), msg.length ≤ 3 →
    hash64 .little msg seed = hash64 .big msg seed

/-- 42_digest_engine R192 (derived there): every read of every step lies inside the message. -/
def Obligations.EveryReadLiesInTheMessage : Prop :=
  ∀ s t : State, s.Inv → step s = .next t →
    ∃ new, t.readLog = s.readLog ++ new ∧
      ∀ r ∈ new, s.arg0.toNat ≤ r.addr ∧ r.addr + r.width ≤ s.arg0.toNat + s.arg1.toNat

/-- 70_reset R320: a running command ends, completed or faulted, within the steps of 42_digest_engine
R175, if a `HASH` that passes its checks has the bytes of its message answered as long as it still reads.
In place of R320's fairness no turn is set, so that every step is a core step (the model's choice, log
3). -/
def Obligations.EveryRunningCommandEnds : Prop :=
  ∀ s : State, s.Inv → s.busy = true → s.turns = [] →
    (s.hashLatched → s.checksPass → s.phase ≠ .hFin1 → s.phase ≠ .hFin2 →
      ∀ a, s.arg0.toNat ≤ a → a < s.arg0.toNat + s.arg1.toNat → ∃ b, memRead s.mem a = some b) →
    ∃ (k : Nat) (t : State), k ≤ hashSteps s.len ∧ run k s = .next t ∧
      ((t.phase = .idle ∧ t.done = true) ∨ (t.phase = .fault ∧ t.done = false))

/-- 44_host_port R249 with 30_encoding R103 (derived there): the protocol of `multiply_mix`, for all
operands, on an idle block. That it takes seven steps with a single poll rests on the core moving first
where no turn is set (the model's choice, log 3). -/
def Obligations.MulScriptReturnsTheProduct : Prop :=
  ∀ (s : State) (u v : Word) (rest : List HostOp), s.phase = .idle → s.waiting = [] →
    s.turns = [] → s.cause = .noFault → s.script = scriptMul64 u v ++ rest →
    ∃ (t : State) (lo hi : Word), run 7 s = .next t ∧
      hi.toNat * 2 ^ 64 + lo.toNat = u.toNat * v.toNat ∧
      t.results = s.results ++ [0x2, lo, hi] ∧ t.script = rest ∧ t.phase = .idle

/-- 44_host_port R249 with 30_encoding R103 (derived there): the pseudo-operation `seed`, and the protocol
of `prng_next`. That the latter takes four steps with a single poll rests on the core moving first where
no turn is set (the model's choice, log 3). -/
def Obligations.SeedAndNextScriptsStepTheCells : Prop :=
  (∀ (s : State) (a b : Word) (rest : List HostOp), s.phase = .idle → s.waiting = [] →
    s.turns = [] → s.script = scriptSeed a b ++ rest →
    run 2 s = .next { s with p1 := a, p2 := b, script := rest }) ∧
  (∀ (s : State) (rest : List HostOp), s.phase = .idle → s.waiting = [] → s.turns = [] →
    s.cause = .noFault → s.script = scriptNext ++ rest →
    ∃ t, run 4 s = .next t ∧
      t.p2.toNat * 2 ^ 64 + t.p1.toNat =
        ((s.p1.toNat + 0x5555555555555555) % 2 ^ 64) *
          ((s.p2.toNat + 0xAAAAAAAAAAAAAAAA) % 2 ^ 64) ∧
      t.results = s.results ++ [0x2, t.p1 ^^^ t.p2] ∧ t.script = rest ∧ t.phase = .idle)

/-- 44_host_port R249 with 30_encoding R103 (derived there): the three protocols of `hash64`: with a seed
and without one for every message in memory that the checks pass, and of the absent buffer. The seedless
one does not depend on what `ARG2` holds, nor the last on `ARG0` or on any byte of memory. The numbers of
steps, with a single poll, rest on the core moving first where no turn is set (the model's choice, log
3). -/
def Obligations.HashScriptsReturnTheDigest : Prop :=
  ∀ (s : State) (ptr len seed : Word) (msg : List Byte) (rest : List HostOp),
    s.inst.legal = true → s.phase = .idle → s.waiting = [] → s.turns = [] → s.cause = .noFault →
    (msg.length = len.toNat → (len = 0 ∨ ptr.toNat + len.toNat ≤ s.inst.memSize) →
      s.holdsMessage ptr.toNat msg →
      (s.script = scriptHash64 ptr len seed ++ rest →
        ∃ t, run (hashSteps msg.length + 6) s = .next t ∧
          t.results = s.results ++ [0x2, hash64 s.inst.byteOrder msg seed] ∧ t.script = rest ∧
          t.phase = .idle) ∧
      (s.script = scriptHash64D ptr len ++ rest →
        ∃ t, run (hashSteps msg.length + 5) s = .next t ∧
          t.results = s.results ++ [0x2, hash64 s.inst.byteOrder msg 0] ∧ t.script = rest ∧
          t.phase = .idle)) ∧
    (s.script = scriptHash64N seed ++ rest →
      ∃ t, run (hashSteps 0 + 5) s = .next t ∧
        t.results = s.results ++ [0x2, hash64 s.inst.byteOrder [] seed] ∧ t.script = rest ∧
        t.phase = .idle)

/-! ### Beside a running command -/

/-- 20_memory R73: what a command whose read has no answer still lets happen. The core has no step, so
its turn passes and changes nothing; the host's reads are taken and show `BUSY` = 1; the host's `reset`
line resets the block. Only where the host has no step either is there no next state (log 21). -/
def Obligations.UnansweredReadTakesOnlyTheCoresStep : Prop :=
  ∀ (s : State) (i : Instr), decode (.phase s.phase.code) = .ok i →
    exec i s = .fault .memoryUnanswered →
    (∀ gs, s.turns = .core :: gs → step s = .next { s with turns := gs }) ∧
    (∀ (n : RegNum) (ops : List HostOp), s.waiting = [] →
      s.script = .request (readRequest n) :: ops →
      (s.turns = [] → step s = exec (.rd n) { s with script := ops }) ∧
      (∀ gs, s.turns = .host :: gs → step s = exec (.rd n) { s with script := ops, turns := gs })) ∧
    (∃ v : Word, exec (.rd 1) s = .next { s with results := s.results ++ [v] } ∧
      v.getLsbD 0 = true) ∧
    (∀ ops, s.waiting = [] → s.script = .reset :: ops → s.turns = [] →
      ∃ t, step s = .next t ∧ t.phase = .idle ∧ t.script = ops ∧ t.mem = s.mem) ∧
    (s.turns = [] → hostReady s = false → step s = .fault .memoryUnanswered)

/-- 20_memory R73, "the block stays busy for ever (stuck), it does not fault and it does not invent
bytes": no step but a reset changes a register of the block, and the read still has no answer after it.
That no line of the script backs a byte of the message meanwhile is the model's host (log 6). -/
def Obligations.StuckCommandStaysStuckUntilReset : Prop :=
  ∀ (s t : State) (i : Instr), s.Inv → decode (.phase s.phase.code) = .ok i →
    exec i s = .fault .memoryUnanswered → s.resetNext = false → step s = .next t →
    t = { s with waiting := t.waiting, script := t.script, results := t.results, mem := t.mem,
                 turns := t.turns } ∧
    exec i t = .fault .memoryUnanswered

/-- 44_host_port R241, R244 and 20_memory R69: whatever the host does in its turn while a command runs,
reset apart, it changes nothing of the block and no byte of a message being hashed, so the command goes
on as if the host had not moved. That the model's host leaves the message alone is log 6. -/
def Obligations.HostTurnLeavesARunningCommandAlone : Prop :=
  ∀ (s t : State) (gs : List Agent), s.busy = true → s.turns = .host :: gs → s.resetNext = false →
    step s = .next t →
    t = { s with waiting := t.waiting, script := t.script, results := t.results, mem := t.mem,
                 turns := gs } ∧
    ∀ a, s.hashLatched → s.arg0.toNat ≤ a → a < s.arg0.toNat + s.arg1.toNat →
      memRead t.mem a = memRead s.mem a
end

