-- ==== Sys2Proof/Laws/State.lean ====
section
/-! SUPPORT. One lemma per field for each named update of the state, so that no proof unfolds a record
update. -/

namespace Sys2Proof.Machine

/-! ### `raiseFault` -/

@[simp] theorem raiseFault_inst (c : Cause) (s : State) : (raiseFault c s).inst = s.inst := rfl
@[simp] theorem raiseFault_phase (c : Cause) (s : State) : (raiseFault c s).phase = .fault := rfl
@[simp] theorem raiseFault_cmdl (c : Cause) (s : State) : (raiseFault c s).cmdl = s.cmdl := rfl
@[simp] theorem raiseFault_done (c : Cause) (s : State) : (raiseFault c s).done = s.done := rfl
@[simp] theorem raiseFault_cause (c : Cause) (s : State) : (raiseFault c s).cause = c := rfl
@[simp] theorem raiseFault_arg0 (c : Cause) (s : State) : (raiseFault c s).arg0 = s.arg0 := rfl
@[simp] theorem raiseFault_arg1 (c : Cause) (s : State) : (raiseFault c s).arg1 = s.arg1 := rfl
@[simp] theorem raiseFault_arg2 (c : Cause) (s : State) : (raiseFault c s).arg2 = s.arg2 := rfl
@[simp] theorem raiseFault_res0 (c : Cause) (s : State) : (raiseFault c s).res0 = s.res0 := rfl
@[simp] theorem raiseFault_res1 (c : Cause) (s : State) : (raiseFault c s).res1 = s.res1 := rfl
@[simp] theorem raiseFault_p1 (c : Cause) (s : State) : (raiseFault c s).p1 = s.p1 := rfl
@[simp] theorem raiseFault_p2 (c : Cause) (s : State) : (raiseFault c s).p2 = s.p2 := rfl
@[simp] theorem raiseFault_s1 (c : Cause) (s : State) : (raiseFault c s).s1 = s.s1 := rfl
@[simp] theorem raiseFault_s2 (c : Cause) (s : State) : (raiseFault c s).s2 = s.s2 := rfl
@[simp] theorem raiseFault_ma (c : Cause) (s : State) : (raiseFault c s).ma = s.ma := rfl
@[simp] theorem raiseFault_mb (c : Cause) (s : State) : (raiseFault c s).mb = s.mb := rfl
@[simp] theorem raiseFault_la (c : Cause) (s : State) : (raiseFault c s).la = s.la := rfl
@[simp] theorem raiseFault_lb (c : Cause) (s : State) : (raiseFault c s).lb = s.lb := rfl
@[simp] theorem raiseFault_cur (c : Cause) (s : State) : (raiseFault c s).cur = s.cur := rfl
@[simp] theorem raiseFault_rem (c : Cause) (s : State) : (raiseFault c s).rem = s.rem := rfl
@[simp] theorem raiseFault_mem (c : Cause) (s : State) : (raiseFault c s).mem = s.mem := rfl
@[simp] theorem raiseFault_waiting (c : Cause) (s : State) : (raiseFault c s).waiting = s.waiting := rfl
@[simp] theorem raiseFault_script (c : Cause) (s : State) : (raiseFault c s).script = s.script := rfl
@[simp] theorem raiseFault_results (c : Cause) (s : State) : (raiseFault c s).results = s.results := rfl
@[simp] theorem raiseFault_readLog (c : Cause) (s : State) : (raiseFault c s).readLog = s.readLog := rfl
@[simp] theorem raiseFault_turns (c : Cause) (s : State) : (raiseFault c s).turns = s.turns := rfl

/-! ### `complete` -/

@[simp] theorem complete_inst (s : State) : (complete s).inst = s.inst := rfl
@[simp] theorem complete_phase (s : State) : (complete s).phase = .idle := rfl
@[simp] theorem complete_cmdl (s : State) : (complete s).cmdl = s.cmdl := rfl
@[simp] theorem complete_done (s : State) : (complete s).done = true := rfl
@[simp] theorem complete_cause (s : State) : (complete s).cause = s.cause := rfl
@[simp] theorem complete_arg0 (s : State) : (complete s).arg0 = s.arg0 := rfl
@[simp] theorem complete_arg1 (s : State) : (complete s).arg1 = s.arg1 := rfl
@[simp] theorem complete_arg2 (s : State) : (complete s).arg2 = s.arg2 := rfl
@[simp] theorem complete_res0 (s : State) : (complete s).res0 = s.res0 := rfl
@[simp] theorem complete_res1 (s : State) : (complete s).res1 = s.res1 := rfl
@[simp] theorem complete_p1 (s : State) : (complete s).p1 = s.p1 := rfl
@[simp] theorem complete_p2 (s : State) : (complete s).p2 = s.p2 := rfl
@[simp] theorem complete_s1 (s : State) : (complete s).s1 = s.s1 := rfl
@[simp] theorem complete_s2 (s : State) : (complete s).s2 = s.s2 := rfl
@[simp] theorem complete_ma (s : State) : (complete s).ma = s.ma := rfl
@[simp] theorem complete_mb (s : State) : (complete s).mb = s.mb := rfl
@[simp] theorem complete_la (s : State) : (complete s).la = s.la := rfl
@[simp] theorem complete_lb (s : State) : (complete s).lb = s.lb := rfl
@[simp] theorem complete_cur (s : State) : (complete s).cur = s.cur := rfl
@[simp] theorem complete_rem (s : State) : (complete s).rem = s.rem := rfl
@[simp] theorem complete_mem (s : State) : (complete s).mem = s.mem := rfl
@[simp] theorem complete_waiting (s : State) : (complete s).waiting = s.waiting := rfl
@[simp] theorem complete_script (s : State) : (complete s).script = s.script := rfl
@[simp] theorem complete_results (s : State) : (complete s).results = s.results := rfl
@[simp] theorem complete_readLog (s : State) : (complete s).readLog = s.readLog := rfl
@[simp] theorem complete_turns (s : State) : (complete s).turns = s.turns := rfl

/-! ### `holdWrite` -/

@[simp] theorem holdWrite_inst (n : RegNum) (v : Word) (s : State) : (holdWrite n v s).inst = s.inst := rfl
@[simp] theorem holdWrite_phase (n : RegNum) (v : Word) (s : State) : (holdWrite n v s).phase = s.phase := rfl
@[simp] theorem holdWrite_cmdl (n : RegNum) (v : Word) (s : State) : (holdWrite n v s).cmdl = s.cmdl := rfl
@[simp] theorem holdWrite_done (n : RegNum) (v : Word) (s : State) : (holdWrite n v s).done = s.done := rfl
@[simp] theorem holdWrite_cause (n : RegNum) (v : Word) (s : State) : (holdWrite n v s).cause = s.cause := rfl
@[simp] theorem holdWrite_arg0 (n : RegNum) (v : Word) (s : State) : (holdWrite n v s).arg0 = s.arg0 := rfl
@[simp] theorem holdWrite_arg1 (n : RegNum) (v : Word) (s : State) : (holdWrite n v s).arg1 = s.arg1 := rfl
@[simp] theorem holdWrite_arg2 (n : RegNum) (v : Word) (s : State) : (holdWrite n v s).arg2 = s.arg2 := rfl
@[simp] theorem holdWrite_res0 (n : RegNum) (v : Word) (s : State) : (holdWrite n v s).res0 = s.res0 := rfl
@[simp] theorem holdWrite_res1 (n : RegNum) (v : Word) (s : State) : (holdWrite n v s).res1 = s.res1 := rfl
@[simp] theorem holdWrite_p1 (n : RegNum) (v : Word) (s : State) : (holdWrite n v s).p1 = s.p1 := rfl
@[simp] theorem holdWrite_p2 (n : RegNum) (v : Word) (s : State) : (holdWrite n v s).p2 = s.p2 := rfl
@[simp] theorem holdWrite_s1 (n : RegNum) (v : Word) (s : State) : (holdWrite n v s).s1 = s.s1 := rfl
@[simp] theorem holdWrite_s2 (n : RegNum) (v : Word) (s : State) : (holdWrite n v s).s2 = s.s2 := rfl
@[simp] theorem holdWrite_ma (n : RegNum) (v : Word) (s : State) : (holdWrite n v s).ma = s.ma := rfl
@[simp] theorem holdWrite_mb (n : RegNum) (v : Word) (s : State) : (holdWrite n v s).mb = s.mb := rfl
@[simp] theorem holdWrite_la (n : RegNum) (v : Word) (s : State) : (holdWrite n v s).la = s.la := rfl
@[simp] theorem holdWrite_lb (n : RegNum) (v : Word) (s : State) : (holdWrite n v s).lb = s.lb := rfl
@[simp] theorem holdWrite_cur (n : RegNum) (v : Word) (s : State) : (holdWrite n v s).cur = s.cur := rfl
@[simp] theorem holdWrite_rem (n : RegNum) (v : Word) (s : State) : (holdWrite n v s).rem = s.rem := rfl
@[simp] theorem holdWrite_mem (n : RegNum) (v : Word) (s : State) : (holdWrite n v s).mem = s.mem := rfl
@[simp] theorem holdWrite_waiting (n : RegNum) (v : Word) (s : State) : (holdWrite n v s).waiting = s.waiting ++ [⟨n, v⟩] := rfl
@[simp] theorem holdWrite_script (n : RegNum) (v : Word) (s : State) : (holdWrite n v s).script = s.script := rfl
@[simp] theorem holdWrite_results (n : RegNum) (v : Word) (s : State) : (holdWrite n v s).results = s.results := rfl
@[simp] theorem holdWrite_readLog (n : RegNum) (v : Word) (s : State) : (holdWrite n v s).readLog = s.readLog := rfl
@[simp] theorem holdWrite_turns (n : RegNum) (v : Word) (s : State) : (holdWrite n v s).turns = s.turns := rfl

/-! ### `resetBlock` -/

@[simp] theorem resetBlock_inst (s : State) : (resetBlock s).inst = s.inst := rfl
@[simp] theorem resetBlock_phase (s : State) : (resetBlock s).phase = .idle := rfl
@[simp] theorem resetBlock_cmdl (s : State) : (resetBlock s).cmdl = 0 := rfl
@[simp] theorem resetBlock_done (s : State) : (resetBlock s).done = false := rfl
@[simp] theorem resetBlock_cause (s : State) : (resetBlock s).cause = .noFault := rfl
@[simp] theorem resetBlock_arg0 (s : State) : (resetBlock s).arg0 = 0 := rfl
@[simp] theorem resetBlock_arg1 (s : State) : (resetBlock s).arg1 = 0 := rfl
@[simp] theorem resetBlock_arg2 (s : State) : (resetBlock s).arg2 = 0 := rfl
@[simp] theorem resetBlock_res0 (s : State) : (resetBlock s).res0 = 0 := rfl
@[simp] theorem resetBlock_res1 (s : State) : (resetBlock s).res1 = 0 := rfl
@[simp] theorem resetBlock_p1 (s : State) : (resetBlock s).p1 = 0 := rfl
@[simp] theorem resetBlock_p2 (s : State) : (resetBlock s).p2 = 0 := rfl
@[simp] theorem resetBlock_s1 (s : State) : (resetBlock s).s1 = 0 := rfl
@[simp] theorem resetBlock_s2 (s : State) : (resetBlock s).s2 = 0 := rfl
@[simp] theorem resetBlock_ma (s : State) : (resetBlock s).ma = 0 := rfl
@[simp] theorem resetBlock_mb (s : State) : (resetBlock s).mb = 0 := rfl
@[simp] theorem resetBlock_la (s : State) : (resetBlock s).la = 0 := rfl
@[simp] theorem resetBlock_lb (s : State) : (resetBlock s).lb = 0 := rfl
@[simp] theorem resetBlock_cur (s : State) : (resetBlock s).cur = 0 := rfl
@[simp] theorem resetBlock_rem (s : State) : (resetBlock s).rem = 0 := rfl
@[simp] theorem resetBlock_mem (s : State) : (resetBlock s).mem = s.mem := rfl
@[simp] theorem resetBlock_waiting (s : State) : (resetBlock s).waiting = [] := rfl
@[simp] theorem resetBlock_script (s : State) : (resetBlock s).script = s.script := rfl
@[simp] theorem resetBlock_results (s : State) : (resetBlock s).results = s.results := rfl
@[simp] theorem resetBlock_readLog (s : State) : (resetBlock s).readLog = s.readLog := rfl
@[simp] theorem resetBlock_turns (s : State) : (resetBlock s).turns = s.turns := rfl

end Sys2Proof.Machine
end

