-- ==== Sys2Proof/Laws/Memory.lean ====
section
/-! SUPPORT. Message memory: a read after a write, the one form of the list, the bytes of a message. -/

namespace Sys2Proof.Machine

theorem memRead_memWrite (m : List Host.Cell) (a : Nat) (b : Byte) (x : Nat) :
    memRead (memWrite m a b) x = if x = a then some b else memRead m x := by
  induction m with
  | nil => simp [memWrite, memRead, eq_comm]
  | cons c m ih =>
    by_cases h1 : a < c.1
    · simp [memWrite, h1, memRead, eq_comm (a := x)]
    by_cases h2 : a = c.1
    · by_cases hx : c.1 = x <;> simp [memWrite, h2, memRead, hx, eq_comm (a := x)]
    · by_cases hx : c.1 = x
      · subst hx
        simp [memWrite, h1, h2, memRead, Ne.symm h2]
      · simp [memWrite, h1, h2, memRead, hx, ih]

theorem memRising_weaken {lo lo' : Nat} {m : List Host.Cell} (h : lo ≤ lo')
    (hm : memRising (some lo') m = true) : memRising (some lo) m = true := by
  cases m with
  | nil => rfl
  | cons c m => simp [memRising] at hm ⊢; exact ⟨by omega, hm.2⟩

theorem memRising_memWrite {m : List Host.Cell} {lo a : Nat} (b : Byte) (ha : lo < a)
    (h : memRising (some lo) m = true) : memRising (some lo) (memWrite m a b) = true := by
  induction m generalizing lo with
  | nil => simp [memWrite, memRising, ha]
  | cons c m ih =>
    simp only [memRising, Bool.and_eq_true, decide_eq_true_eq] at h
    unfold memWrite
    split_ifs with h1 h2
    · simp [memRising, ha, h1, h.2]
    · subst h2; simp [memRising, ha, h.2]
    · simp [memRising, h.1, ih (by omega : c.1 < a) h.2]

/-- A store keeps the one form of memory. -/
theorem memWf_memWrite {m : List Host.Cell} (a : Nat) (b : Byte) (h : memWf m = true) :
    memWf (memWrite m a b) = true := by
  cases m with
  | nil => rfl
  | cons c m =>
    simp only [memWf, memRising] at h
    simp only [memWf, memWrite]
    split_ifs with h1 h2
    · simp [memRising, h1, h]
    · subst h2; simpa [memRising] using h
    · exact memRising_memWrite b (by omega) h

/-- A store inside message memory leaves every byte inside it. -/
theorem memWithin_memWrite {size : Nat} {m : List Host.Cell} {a : Nat} (b : Byte) (ha : a < size)
    (h : memWithin size m = true) : memWithin size (memWrite m a b) = true := by
  induction m with
  | nil => simp [memWrite, memWithin, ha]
  | cons c m ih =>
    have hm : c.1 < size ∧ memWithin size m = true := by simpa [memWithin] using h
    unfold memWrite
    split_ifs
    · simpa [memWithin, ha] using h
    · simpa [memWithin, ha] using hm.2
    · simpa [memWithin, hm.1] using ih hm.2

theorem memRising_ext {m m' : List Host.Cell} {lo : Nat} (h : memRising (some lo) m = true)
    (h' : memRising (some lo) m' = true) (he : ∀ a, memRead m a = memRead m' a) : m = m' := by
  have low : ∀ {m : List Host.Cell} {lo a : Nat}, memRising (some lo) m = true → a ≤ lo →
      memRead m a = none := by
    intro m
    induction m with
    | nil => intros; rfl
    | cons c m ih =>
      intro lo a hm ha
      simp only [memRising, Bool.and_eq_true, decide_eq_true_eq] at hm
      simp only [memRead]
      rw [if_neg (by omega)]
      exact ih hm.2 (by omega)
  induction m generalizing m' lo with
  | nil =>
    cases m' with
    | nil => rfl
    | cons c m' => have := he c.1; simp [memRead] at this
  | cons c m ih =>
    cases m' with
    | nil => have := he c.1; simp [memRead] at this
    | cons d m' =>
      simp only [memRising, Bool.and_eq_true, decide_eq_true_eq] at h h'
      have h1 := he c.1
      have h2 := he d.1
      simp only [memRead, if_true] at h1 h2
      have hcd : c.1 = d.1 := by
        by_contra hne
        rcases Nat.lt_or_gt_of_ne hne with hlt | hlt
        · rw [if_neg (by omega), low h'.2 (by omega)] at h1
          cases h1
        · rw [if_neg (by omega), low h.2 (by omega)] at h2
          cases h2
      have hb : c = d := by
        refine Prod.ext hcd ?_
        rw [if_pos hcd.symm] at h1
        exact Option.some.inj h1
      subst hb
      refine congrArg (c :: ·) (ih h.2 h'.2 fun a => ?_)
      have := he a
      simp only [memRead] at this
      by_cases hac : c.1 = a
      · subst hac
        rw [low h.2 le_rfl, low h'.2 le_rfl]
      · simpa [hac] using this

/-- Equal memories are equal lists: the one form is canonical. -/
theorem memWf_ext {m m' : List Host.Cell} (h : memWf m = true) (h' : memWf m' = true)
    (he : ∀ a, memRead m a = memRead m' a) : m = m' := by
  cases m with
  | nil =>
    cases m' with
    | nil => rfl
    | cons d m' => have := he d.1; simp [memRead] at this
  | cons c m =>
    cases m' with
    | nil => have := he c.1; simp [memRead] at this
    | cons d m' =>
      simp only [memWf, memRising] at h h'
      have bump : ∀ {c : Host.Cell} {m : List Host.Cell} {a : Nat}, memRead (c :: m) a =
          if c.1 = a then some c.2 else memRead m a := rfl
      -- shift both lists up by one so that 0 is a lower bound of all addresses
      have shift : ∀ (m : List Host.Cell) (lo : Nat), memRising (some lo) m = true →
          memRising (some (lo + 1)) (m.map fun c => (c.1 + 1, c.2)) = true := by
        intro m
        induction m with
        | nil => intros; rfl
        | cons c m ih =>
          intro lo hm
          simp only [memRising, Bool.and_eq_true, decide_eq_true_eq] at hm
          simp [memRising, hm.1, ih _ hm.2]
      have readShift : ∀ (m : List Host.Cell) (a : Nat),
          memRead (m.map fun c => (c.1 + 1, c.2)) (a + 1) = memRead m a := by
        intro m a
        induction m with
        | nil => rfl
        | cons c m ih => simp [memRead, ih]
      have readZero : ∀ m : List Host.Cell,
          memRead (m.map fun c => (c.1 + 1, c.2)) 0 = none := by
        intro m
        induction m with
        | nil => rfl
        | cons c m ih => simp [memRead, ih]
      have key := memRising_ext (lo := 0) (m := ((c :: m).map fun c => (c.1 + 1, c.2)))
        (m' := ((d :: m').map fun c => (c.1 + 1, c.2)))
        (by simpa [memRising] using shift m c.1 h) (by simpa [memRising] using shift m' d.1 h')
        (fun a => by
          cases a with
          | zero => rw [readZero, readZero]
          | succ a => rw [readShift, readShift, he])
      refine List.map_injective_iff.mpr ?_ key
      intro x y hxy
      have := congrArg Prod.fst hxy
      have := congrArg Prod.snd hxy
      exact Prod.ext (by simpa using congrArg Prod.fst hxy) (by simpa using congrArg Prod.snd hxy)

/-- All bytes of a backed range are read. -/
theorem memBytes_eq_some {m : List Host.Cell} {a n : Nat} {bs : List Byte} (hl : bs.length = n)
    (h : ∀ i (hi : i < bs.length), memRead m (a + i) = some bs[i]) : memBytes m a n = some bs := by
  induction n generalizing a bs with
  | zero => simp [memBytes, List.length_eq_zero_iff.mp hl]
  | succ n ih =>
    cases bs with
    | nil => simp at hl
    | cons b bs =>
      have h0 := h 0 (by simp)
      have hs := ih (a := a + 1) (bs := bs) (by simpa using hl) (fun i hi => by
        have := h (i + 1) (by simpa using hi)
        simpa [Nat.add_assoc, Nat.add_comm 1 i] using this)
      simp only [Nat.add_zero] at h0
      simp [memBytes, h0, hs]

theorem memBytes_some {m : List Host.Cell} {a n : Nat} {bs : List Byte}
    (h : memBytes m a n = some bs) :
    bs.length = n ∧ ∀ i (hi : i < bs.length), memRead m (a + i) = some bs[i] := by
  induction n generalizing a bs with
  | zero => simp [memBytes] at h; subst h; simp
  | succ n ih =>
    unfold memBytes at h
    split at h
    · rename_i b bs' hb hbs
      obtain ⟨hl, hr⟩ := ih hbs
      cases h
      refine ⟨by simp [hl], fun i hi => ?_⟩
      cases i with
      | zero => simpa using hb
      | succ i =>
        have := hr i (by simpa using hi)
        simpa [Nat.add_assoc, Nat.add_comm 1 i] using this
    · cases h

/-- A range that is backed everywhere has all its bytes. -/
theorem memBytes_of_backed {m : List Host.Cell} {a n : Nat}
    (h : ∀ x, a ≤ x → x < a + n → ∃ b, memRead m x = some b) : ∃ bs, memBytes m a n = some bs := by
  induction n generalizing a with
  | zero => exact ⟨[], rfl⟩
  | succ n ih =>
    obtain ⟨b, hb⟩ := h a le_rfl (by omega)
    obtain ⟨bs, hbs⟩ := ih (a := a + 1) fun x h1 h2 => h x (by omega) (by omega)
    exact ⟨b :: bs, by simp [memBytes, hb, hbs]⟩

end Sys2Proof.Machine
end

