-- ==== Sys2Proof/Laws/Ops.lean ====
section
/-! SUPPORT. What each shared operation can do, said once: the product, the reads of message memory,
command accept, the writes of the port, the meanings that load lanes. -/

namespace Sys2Proof.Machine

/-! ### The product -/

theorem toNat_mul_lt (u v : Word) : u.toNat * v.toNat < 2 ^ 64 * 2 ^ 64 :=
  Nat.mul_lt_mul'' u.isLt v.isLt

@[simp] theorem mulFull_fst_toNat (u v : Word) :
    (mulFull u v).1.toNat = u.toNat * v.toNat % 2 ^ 64 := by simp [mulFull]

@[simp] theorem mulFull_snd_toNat (u v : Word) :
    (mulFull u v).2.toNat = u.toNat * v.toNat / 2 ^ 64 := by
  simp only [mulFull, BitVec.toNat_ofNat]
  exact Nat.mod_eq_of_lt (Nat.div_lt_of_lt_mul (toNat_mul_lt u v))

/-- The two halves make the exact product (40_multiplier R120). -/
theorem mulFull_exact (u v : Word) :
    (mulFull u v).2.toNat * 2 ^ 64 + (mulFull u v).1.toNat = u.toNat * v.toNat := by
  rw [mulFull_fst_toNat, mulFull_snd_toNat]
  exact Nat.div_add_mod' _ _

theorem mulFull_comm (u v : Word) : mulFull u v = mulFull v u := by
  simp [mulFull, Nat.mul_comm]

/-- A pair of halves that makes the product is the product. -/
theorem mulFull_unique {u v lo hi : Word}
    (h : hi.toNat * 2 ^ 64 + lo.toNat = u.toNat * v.toNat) : mulFull u v = (lo, hi) := by
  have hlo := lo.isLt
  refine Prod.ext (BitVec.eq_of_toNat_eq ?_) (BitVec.eq_of_toNat_eq ?_)
  · rw [mulFull_fst_toNat, ← h]; simp only; omega
  · rw [mulFull_snd_toNat, ← h]; simp only; omega

/-! ### Lanes -/

theorem littleNat_append (xs ys : List Byte) :
    littleNat (xs ++ ys) = littleNat xs + 256 ^ xs.length * littleNat ys := by
  induction xs with
  | nil => simp [littleNat]
  | cons x xs ih => simp only [List.cons_append, littleNat, ih, List.length_cons, pow_succ]; ring

theorem littleNat_lt (bs : List Byte) : littleNat bs < 256 ^ bs.length := by
  induction bs with
  | nil => simp [littleNat]
  | cons b bs ih =>
    have := b.isLt
    simp only [littleNat, List.length_cons, pow_succ]
    omega

theorem laneNat_lt (o : Config.ByteOrder) (bs : List Byte) : laneNat o bs < 256 ^ bs.length := by
  cases o
  · exact littleNat_lt bs
  · simpa [laneNat] using littleNat_lt bs.reverse

/-- A lane of at most eight bytes is not cut (20_memory R64). -/
theorem laneValue_toNat {o : Config.ByteOrder} {bs : List Byte} (h : bs.length ≤ 8) :
    (laneValue o bs).toNat = laneNat o bs := by
  have := laneNat_lt o bs
  have h2 : 256 ^ bs.length ≤ 2 ^ 64 := by
    calc 256 ^ bs.length ≤ 256 ^ 8 := Nat.pow_le_pow_right (by norm_num) h
      _ = 2 ^ 64 := by norm_num
  simp only [laneValue, BitVec.toNat_ofNat]
  exact Nat.mod_eq_of_lt (by omega)

/-- One byte is the same under both byte orders (20_memory R65). -/
theorem laneValue_single (o : Config.ByteOrder) (b : Byte) :
    laneValue o [b] = laneValue .little [b] := by cases o <;> rfl

/-! ### Address truncation -/

theorem truncAddr_toNat (p : Config.Params) (v : Word) :
    (truncAddr p v).toNat = v.toNat % p.memSize := by
  have h1 := v.isLt
  have h2 := Nat.mod_le v.toNat p.memSize
  simp only [truncAddr, BitVec.toNat_ofNat]
  exact Nat.mod_eq_of_lt (by omega)

theorem memSize_pos (p : Config.Params) : 0 < p.memSize := Nat.two_pow_pos _

theorem truncAddr_lt (p : Config.Params) (v : Word) : (truncAddr p v).toNat < p.memSize := by
  rw [truncAddr_toNat]; exact Nat.mod_lt _ (memSize_pos p)

theorem truncAddr_of_lt {p : Config.Params} {v : Word} (h : v.toNat < p.memSize) :
    truncAddr p v = v := BitVec.eq_of_toNat_eq (by rw [truncAddr_toNat, Nat.mod_eq_of_lt h])

/-! ### Reads of message memory -/

/-- A read that is answered goes on with the bytes and the read logged. -/
theorem readBytes_of_bytes {s : State} {a n : Nat} {bs : List Byte} (k : List Byte → State → Out)
    (hf : a + n ≤ s.inst.memSize) (hb : memBytes s.mem a n = some bs) :
    readBytes s a n k = k bs { s with readLog := s.readLog ++ [⟨a, n⟩] } := by
  have : (0 : Int) ≤ a ∧ (a : Int) + n ≤ s.inst.memSize := by omega
  simp [readBytes, this, hb]

/-- All that a read can do when the step goes on. -/
theorem readBytes_next {s t : State} {addr : Int} {n : Nat} {k : List Byte → State → Out}
    (h : readBytes s addr n k = .next t) :
    ∃ a bs, addr = (a : Nat) ∧ a + n ≤ s.inst.memSize ∧ memBytes s.mem a n = some bs ∧
      k bs { s with readLog := s.readLog ++ [⟨a, n⟩] } = .next t := by
  unfold readBytes at h
  split at h
  · rename_i hf
    split at h
    · rename_i bs hb
      exact ⟨addr.toNat, bs, by omega, by omega, hb, h⟩
    · cases h
  · cases h

theorem readLane_of_bytes {s : State} {a n : Nat} {bs : List Byte} (k : Word → State → Out)
    (hf : a + n ≤ s.inst.memSize) (hb : memBytes s.mem a n = some bs) :
    readLane s a n k =
      k (laneValue s.inst.byteOrder bs) { s with readLog := s.readLog ++ [⟨a, n⟩] } :=
  readBytes_of_bytes _ hf hb

theorem readLane_next {s t : State} {addr : Int} {n : Nat} {k : Word → State → Out}
    (h : readLane s addr n k = .next t) :
    ∃ a bs, addr = (a : Nat) ∧ a + n ≤ s.inst.memSize ∧ memBytes s.mem a n = some bs ∧
      k (laneValue s.inst.byteOrder bs) { s with readLog := s.readLog ++ [⟨a, n⟩] } = .next t :=
  readBytes_next h

theorem readByteIf_next {s t : State} {c : Bool} {addr : Int} {k : Word → State → Out}
    (h : readByteIf c s addr k = .next t) :
    (c = false ∧ k 0 s = .next t) ∨
      (c = true ∧ ∃ a bs, addr = (a : Nat) ∧ a + 1 ≤ s.inst.memSize ∧
        memBytes s.mem a 1 = some bs ∧
        k (laneValue .little bs) { s with readLog := s.readLog ++ [⟨a, 1⟩] } = .next t) := by
  cases c
  · exact .inl ⟨rfl, h⟩
  · exact .inr ⟨rfl, readBytes_next h⟩

/-! ### What the loading meanings can do -/

/-- A loading micro-operation changes the two lanes, the phase and the read log, and only adds to the
log. -/
def loadsOnly (p : Phase) (s t : State) : Prop :=
  ∃ a b new, t = { s with la := a, lb := b, phase := p, readLog := s.readLog ++ new }

theorem execHShort_next {s t : State} (h : execHShort s = .next t) : loadsOnly .hFin1 s t := by
  unfold execHShort at h
  rcases readByteIf_next h with ⟨-, h⟩ | ⟨-, _, _, -, -, -, h⟩ <;>
  rcases readByteIf_next h with ⟨-, h⟩ | ⟨-, _, _, -, -, -, h⟩ <;>
  rcases readByteIf_next h with ⟨-, h⟩ | ⟨-, _, _, -, -, -, h⟩ <;>
  cases h
  · exact ⟨_, _, [], by rw [List.append_nil]⟩
  all_goals exact ⟨_, _, _, by simp only [List.append_assoc]; rfl⟩

theorem execHMid_next {s t : State} (h : execHMid s = .next t) : loadsOnly .hFin1 s t := by
  unfold execHMid at h
  obtain ⟨_, _, -, -, -, h⟩ := readLane_next h
  obtain ⟨_, _, -, -, -, h⟩ := readLane_next h
  obtain ⟨_, _, -, -, -, h⟩ := readLane_next h
  obtain ⟨_, _, -, -, -, h⟩ := readLane_next h
  cases h
  exact ⟨_, _, _, by simp only [List.append_assoc]; rfl⟩

theorem execHBulkLd_next {s t : State} (h : execHBulkLd s = .next t) : loadsOnly .hBulkMx s t := by
  unfold execHBulkLd at h
  obtain ⟨_, _, -, -, -, h⟩ := readLane_next h
  obtain ⟨_, _, -, -, -, h⟩ := readLane_next h
  cases h
  exact ⟨_, _, _, by simp only [List.append_assoc]; rfl⟩

theorem execHTail_next {s t : State} (h : execHTail s = .next t) : loadsOnly .hFin1 s t := by
  unfold execHTail at h
  obtain ⟨_, _, -, -, -, h⟩ := readLane_next h
  obtain ⟨_, _, -, -, -, h⟩ := readLane_next h
  cases h
  exact ⟨_, _, _, by simp only [List.append_assoc]; rfl⟩

/-! ### Accept and the writes of the port -/

/-- All that `accept` can do: a legal word starts its command, any other raises `ILLEGAL`. -/
theorem accept_cases (w : Word) (s : State) :
    (∃ c, decodeCommand w = some c ∧
      accept w s =
        { s with cmdl := w.extractLsb' 0 5, done := false, phase := Command.firstPhase c }) ∨
    (decodeCommand w = none ∧
      accept w s =
        { s with cmdl := w.extractLsb' 0 5, done := false, cause := .illegal, phase := .fault }) := by
  cases h : decodeCommand w with
  | none => exact .inr ⟨rfl, by simp [accept, h, raiseFault]⟩
  | some c => exact .inl ⟨c, rfl, by simp [accept, h]⟩

/-- All that a taken write can do. -/
theorem takeWrite_cases (n : RegNum) (v : Word) (s : State) :
    takeWrite n v s = accept v s ∨
    takeWrite n v s = { s with arg0 := v } ∨ takeWrite n v s = { s with arg1 := v } ∨
    takeWrite n v s = { s with arg2 := v } ∨ takeWrite n v s = { s with p1 := v } ∨
    takeWrite n v s = { s with p2 := v } ∨ takeWrite n v s = s := by
  unfold takeWrite
  split <;> simp

theorem portWrite_idle {s : State} (h : s.phase = .idle) (n : RegNum) (v : Word) :
    portWrite n v s = takeWrite n v s := if_pos h

theorem portWrite_notIdle {s : State} (h : s.phase ≠ .idle) (n : RegNum) (v : Word) :
    portWrite n v s = holdWrite n v s := if_neg h

/-! ### Command words -/

/-- The words that decode, and to what (30_encoding R94). -/
theorem decodeCommand_eq_some {w : Word} {c : Command} :
    decodeCommand w = some c ↔ w = c.word := by
  constructor
  · intro h
    unfold decodeCommand at h
    have hr : ∀ w : Word, reservedField w = 0 → w.toNat < 32 := by
      intro w hw
      have := congrArg BitVec.toNat hw
      have hlt := w.isLt
      simp only [reservedField, BitVec.extractLsb'_toNat, Nat.shiftRight_eq_div_pow] at this
      simp at this
      omega
    have fin : ∀ w : Word, w.toNat < 32 → ∀ c, decodeCommand w = some c → w = c.word := by
      intro w hw
      have : ∃ k : Fin 32, w = BitVec.ofNat 64 k := ⟨⟨w.toNat, hw⟩, by simp⟩
      obtain ⟨k, rfl⟩ := this
      intro c
      revert k
      cases c with
      | mul => decide
      | pnext => decide
      | hash bp sv => revert bp sv; decide
    split at h
    · cases h
    · rename_i hz
      exact fin w (hr w (by simpa using hz)) c (by
        unfold decodeCommand; rw [if_neg hz]; exact h)
  · rintro rfl
    cases c with
    | mul => decide
    | pnext => decide
    | hash bp sv => cases bp <;> cases sv <;> decide

theorem decodeCommand_word (c : Command) : decodeCommand c.word = some c :=
  decodeCommand_eq_some.mpr rfl

/-! ### Phase codes -/

@[simp] theorem ofCode_code (p : Phase) : Phase.ofCode p.code = p := by cases p <;> rfl

theorem decode_phase_code (p : Phase) :
    decode (.phase p.code) = match p.microOp with
      | some i => .ok i
      | none => .error .noMicroOperation := by
  cases p <;> rfl

end Sys2Proof.Machine
end

