-- ==== Sys2Proof/Laws/Step.lean ====
section
/-! SUPPORT. What a step can do, said once for each agent; every claim about all steps cites these. -/

namespace Sys2Proof.Machine

/-! ### Running the decoded instruction -/

theorem coreStep_eq {s : State} {i : Instr} (h : s.phase.microOp = some i) :
    coreStep s = exec i s := by
  simp [coreStep, decode_phase_code, h]

theorem decode_readRequest (n : RegNum) : decode (.port (readRequest n)) = .ok (.rd n) := by
  have hw : (readRequest n).header.getLsbD 4 = false := by
    revert n; decide
  have hn : (readRequest n).header.extractLsb' 0 4 = n := by
    revert n; decide
  simp only [decode, decodePort, hw, hn]
  rfl

theorem decode_writeRequest (n : RegNum) (v : Word) :
    decode (.port (writeRequest n v)) = .ok (.wr n v) := by
  have hw : (1#1 ++ n).getLsbD 4 = true := by
    revert n; decide
  have hn : (1#1 ++ n).extractLsb' 0 4 = n := by
    revert n; decide
  simp only [decode, decodePort, writeRequest, hw, hn]

theorem issue_of_decode {r : PortRequest} {i : Instr} (s : State)
    (h : decode (.port r) = .ok i) : issue r s = exec i s := by simp [issue, h]

/-- Only reads and writes come through the port. -/
theorem decode_port_cases {r : PortRequest} {i : Instr} (h : decode (.port r) = .ok i) :
    (∃ n, i = .rd n) ∨ ∃ n v, i = .wr n v := by
  simp only [decode, decodePort] at h
  split at h <;> cases h
  · exact .inl ⟨_, rfl⟩
  · exact .inr ⟨_, _, rfl⟩

/-! ### The core -/

/-- All that a core step can do: the micro-operation of the phase. -/
theorem coreStep_next {s t : State} (h : coreStep s = .next t) :
    ∃ i, s.phase.microOp = some i ∧ exec i s = .next t := by
  simp only [coreStep, decode_phase_code] at h
  cases hi : s.phase.microOp with
  | none => rw [hi] at h; cases h
  | some i => rw [hi] at h; exact ⟨i, rfl, h⟩

theorem microOp_isSome_iff_busy (s : State) : (s.phase.microOp.isSome = true) ↔ s.busy = true := by
  unfold State.busy
  cases s.phase <;> decide

theorem microOp_of_decode {s : State} {i : Instr} (h : decode (.phase s.phase.code) = .ok i) :
    s.phase.microOp = some i := by
  rw [decode_phase_code] at h
  cases hm : s.phase.microOp with
  | none => rw [hm] at h; cases h
  | some j => rw [hm] at h; cases h; rfl

/-- `unanswered` says of an outcome that it is the one stuck state of 20_memory R73. -/
theorem unanswered_iff (o : Out) : unanswered o = true ↔ o = .fault .memoryUnanswered := by
  cases o <;> simp [unanswered]

/-- A block has at most one step of the core: the micro-operation of its phase, if it is answered. -/
theorem coreReady_iff {s : State} {i : Instr} (hi : s.phase.microOp = some i) :
    coreReady s = true ↔ exec i s ≠ .fault .memoryUnanswered := by
  have hb : s.busy = true := (microOp_isSome_iff_busy s).mp (by simp [hi])
  rw [coreReady, hb, coreStep_eq hi, Bool.true_and, Ne, ← unanswered_iff]
  cases unanswered (exec i s) <;> simp

theorem coreReady_of_next {s t : State} {i : Instr} (hi : s.phase.microOp = some i)
    (he : exec i s = .next t) : coreReady s = true := (coreReady_iff hi).mpr (by rw [he]; simp)

/-- A command whose read has no answer gives the core no step. -/
theorem coreReady_of_unanswered {s : State} {i : Instr} (hi : s.phase.microOp = some i)
    (he : exec i s = .fault .memoryUnanswered) : coreReady s = false := by
  cases h : coreReady s
  · rfl
  · exact absurd he ((coreReady_iff hi).mp h)

theorem busy_of_coreReady {s : State} (h : coreReady s = true) : s.busy = true :=
  (Bool.and_eq_true_iff.mp h).1

theorem coreReady_of_notBusy {s : State} (h : s.busy = false) : coreReady s = false := by
  rw [coreReady, h]; rfl

/-! ### The host -/

/-- All that a host step can do. -/
theorem hostStep_next {s t : State} (hr : hostReady s = true) (h : hostStep s = .next t) :
    (∃ w ws, s.waiting = w :: ws ∧ s.phase = .idle ∧
      t = takeWrite w.reg w.value { s with waiting := ws }) ∨
    (∃ n r ops, s.waiting = [] ∧ s.script = .request r :: ops ∧ decode (.port r) = .ok (.rd n) ∧
      t = { s with script := ops, results := s.results ++ [portRead n s] }) ∨
    (∃ n v r ops, s.waiting = [] ∧ s.script = .request r :: ops ∧
      decode (.port r) = .ok (.wr n v) ∧ t = portWrite n v { s with script := ops }) ∨
    (∃ ops, s.waiting = [] ∧ s.script = .wait :: ops ∧
      (t = s ∨ t = { s with script := ops, results := s.results ++ [portRead 1 s] })) ∨
    (∃ ops, s.waiting = [] ∧ s.script = .reset :: ops ∧ t = resetBlock { s with script := ops }) ∨
    (∃ a b ops, s.waiting = [] ∧ s.script = .place a b :: ops ∧ s.inMessage a = false ∧
      a < s.inst.memSize ∧ t = { s with script := ops, mem := memWrite s.mem a b }) := by
  unfold hostStep at h
  split at h
  · rename_i w ws hw
    have hp : s.phase = .idle := by simpa [hostReady, hw] using hr
    refine .inl ⟨w, ws, hw, hp, ?_⟩
    simpa [exec, execWr, portWrite, hp] using h.symm
  · rename_i op ops hw hs
    right
    cases op with
    | request r =>
      simp only [scriptStep] at h
      cases hd : decode (.port r) with
      | error e => simp [issue, hd] at h
      | ok i =>
        rw [issue_of_decode _ hd] at h
        rcases decode_port_cases hd with ⟨n, rfl⟩ | ⟨n, v, rfl⟩
        · exact .inl ⟨n, r, ops, hw, hs, hd, by cases h; rfl⟩
        · exact .inr (.inl ⟨n, v, r, ops, hw, hs, hd, by cases h; rfl⟩)
    | wait =>
      refine .inr (.inr (.inl ⟨ops, hw, hs, ?_⟩))
      simp only [scriptStep] at h
      split at h
      · left
        have := Host.Outcome.next.inj h
        rw [← this, ← hs]
      · right; cases h; rfl
    | reset => exact .inr (.inr (.inr (.inl ⟨ops, hw, hs, by cases h; rfl⟩)))
    | place a b =>
      have hb : s.inMessage a = false := by simpa [hostReady, hw, hs] using hr
      simp only [scriptStep] at h
      split at h
      · rename_i ha
        exact .inr (.inr (.inr (.inr ⟨a, b, ops, hw, hs, hb, ha, by cases h; rfl⟩)))
      · cases h
  · cases h

/-! ### The step -/

/-- `s` without the turn that is next. -/
def afterTurn (s : State) : State := { s with turns := s.turns.tail }

/-- The step resets by a reset turn, or where the host moves and its next line is `reset`. -/
theorem resetNext_eq (s : State) : s.resetNext = match s.turns with
    | .reset :: _ => true
    | .host :: _ => s.waiting.isEmpty && s.script.head? == some .reset
    | .core :: _ => false
    | [] => !coreReady s && (s.waiting.isEmpty && s.script.head? == some .reset) := rfl

/-- All that a step can do: reset, a turn that passes, a core step, or a host step. -/
theorem step_next {s t : State} (h : step s = .next t) :
    (s.turns.head? = some .reset ∧ t = resetBlock (afterTurn s)) ∨
    (s.turns ≠ [] ∧ t = afterTurn s) ∨
    (s.busy = true ∧ ∃ i, s.phase.microOp = some i ∧ exec i (afterTurn s) = .next t) ∨
    (hostReady (afterTurn s) = true ∧ hostStep (afterTurn s) = .next t) := by
  unfold step at h
  split at h
  · rename_i g gs hg
    have ha : { s with turns := gs } = afterTurn s := by simp [afterTurn, hg]
    rw [ha] at h
    cases g with
    | reset => exact .inl ⟨by simp [hg], by simpa [agentStep] using h.symm⟩
    | core =>
      simp only [agentStep] at h
      split at h
      · rename_i hb
        obtain ⟨i, hi, he⟩ := coreStep_next h
        exact .inr (.inr (.inl ⟨busy_of_coreReady (s := afterTurn s) hb, i, hi, he⟩))
      · exact .inr (.inl ⟨by simp [hg], by cases h; rfl⟩)
    | host =>
      simp only [agentStep] at h
      split at h
      · rename_i hr
        exact .inr (.inr (.inr ⟨hr, h⟩))
      · exact .inr (.inl ⟨by simp [hg], by cases h; rfl⟩)
  · rename_i hg
    have ha : afterTurn s = s := by
      unfold afterTurn
      rw [hg]
      cases s
      simp_all
    rw [ha]
    unfold freeStep at h
    split at h
    · rename_i hb
      obtain ⟨i, hi, he⟩ := coreStep_next h
      exact .inr (.inr (.inl ⟨busy_of_coreReady hb, i, hi, he⟩))
    · split at h
      · rename_i hr
        exact .inr (.inr (.inr ⟨hr, h⟩))
      · cases h

/-- With no turn set, a running command takes its next core step, if its reads are answered. -/
theorem step_core_free {s : State} {i : Instr} (ht : s.turns = []) (hi : s.phase.microOp = some i)
    (ha : exec i s ≠ .fault .memoryUnanswered) : step s = exec i s := by
  unfold step
  rw [ht]
  simp only [freeStep, (coreReady_iff hi).mpr ha, if_true]
  exact coreStep_eq hi

/-- With the core's turn set, a running command takes its next core step, if its reads are answered. -/
theorem step_core_turn {s : State} {i : Instr} {gs : List Agent} (ht : s.turns = .core :: gs)
    (hi : s.phase.microOp = some i)
    (ha : exec i { s with turns := gs } ≠ .fault .memoryUnanswered) :
    step s = exec i { s with turns := gs } := by
  have hr : coreReady { s with turns := gs } = true :=
    (coreReady_iff (s := { s with turns := gs }) hi).mpr ha
  unfold step
  rw [ht]
  simp only [agentStep, hr, if_true]
  exact coreStep_eq hi

/-- With no turn set and no core step, the host moves if it can, and else nobody can. -/
theorem step_host_free {s : State} (ht : s.turns = []) (hc : coreReady s = false) :
    step s = if hostReady s then hostStep s else .fault (stopReason s) := by
  unfold step
  rw [ht]
  simp only [freeStep, hc, Bool.false_eq_true, if_false]

/-! ### Runs -/

theorem run_zero (s : State) : run 0 s = .next s := rfl

/-- The first step of a run. -/
theorem run_succ (k : Nat) (s : State) :
    run (k + 1) s = match step s with
      | .next t => run k t
      | .fault r => .fault r
      | .refused r => .refused r := rfl

theorem run_of_step {s t : State} (k : Nat) (h : step s = .next t) : run (k + 1) s = run k t := by
  rw [run_succ, h]

/-- With no turn set, a run of a running command begins with the micro-operation of its phase. -/
theorem run_of_microOp {s t : State} {i : Instr} (k : Nat) (ht : s.turns = [])
    (hi : s.phase.microOp = some i) (he : exec i s = .next t) : run (k + 1) s = run k t :=
  run_of_step k ((step_core_free ht hi (by rw [he]; simp)).trans he)

/-- `k` steps and then more. -/
theorem run_add (j k : Nat) (s : State) :
    run (j + k) s = match run j s with
      | .next t => run k t
      | .fault r => .fault r
      | .refused r => .refused r := by
  induction j generalizing s with
  | zero => simp [run_zero]
  | succ j ih =>
    rw [Nat.succ_add, run_succ, run_succ]
    cases step s with
    | next t => exact ih t
    | fault r => rfl
    | refused r => rfl

theorem run_add_of_next {j k : Nat} {s t : State} (h : run j s = .next t) :
    run (j + k) s = run k t := by rw [run_add, h]

end Sys2Proof.Machine
end

