-- ==== Sys2Proof/Laws/Frame.lean ====
section
/-! SUPPORT. What the micro-operations leave alone, and every step seen from the fields it may change.
Claims about all steps start from `step_fields`. -/

namespace Sys2Proof.Machine

/-- What no micro-operation writes, and what all but a named few leave (10_state R43). -/
theorem microOp_frame {i : Instr} {s t : State} (hm : isMicroOp i = true) (h : exec i s = .next t) :
    t.cmdl = s.cmdl ∧ t.arg0 = s.arg0 ∧ t.arg1 = s.arg1 ∧ t.arg2 = s.arg2 ∧ t.inst = s.inst ∧
    t.mem = s.mem ∧ t.waiting = s.waiting ∧ t.script = s.script ∧ t.results = s.results ∧
    t.turns = s.turns ∧
    (i ≠ .prngX → t.p1 = s.p1 ∧ t.p2 = s.p2) ∧ (i ≠ .mulX → t.res1 = s.res1) ∧
    (i ≠ .mulX → i ≠ .prngX → i ≠ .hFin2 → t.res0 = s.res0 ∧ t.done = s.done) := by
  cases i <;> simp only [exec, isMicroOp, reduceCtorEq] at h hm
  case hShort => obtain ⟨_, _, _, rfl⟩ := execHShort_next h; simp
  case hMid => obtain ⟨_, _, _, rfl⟩ := execHMid_next h; simp
  case hTail => obtain ⟨_, _, _, rfl⟩ := execHTail_next h; simp
  case hBulkLd => obtain ⟨_, _, _, rfl⟩ := execHBulkLd_next h; simp
  case hCheck => unfold execHCheck at h; split_ifs at h <;> cases h <;> simp
  all_goals (cases h; simp)

/-! ### What stands outside the block makes no difference to a micro-operation -/

/-- `s` with another port, script, result list and turns. -/
def State.withOutside (ws : List PortWrite) (sc : List HostOp) (rs : List Word) (gs : List Agent)
    (s : State) : State :=
  { s with waiting := ws, script := sc, results := rs, turns := gs }

theorem readBytes_withOutside {ws : List PortWrite} {sc : List HostOp} {rs : List Word}
    {gs : List Agent} (s : State) (addr : Int) (n : Nat) (k k' : List Byte → State → Out)
    (hk : ∀ bs t, k' bs (t.withOutside ws sc rs gs) =
      mapNext (State.withOutside ws sc rs gs) (k bs t)) :
    readBytes (s.withOutside ws sc rs gs) addr n k' =
      mapNext (State.withOutside ws sc rs gs) (readBytes s addr n k) := by
  by_cases hf : 0 ≤ addr ∧ addr + n ≤ s.inst.memSize
  · cases hb : memBytes s.mem addr.toNat n with
    | none =>
      have he : ∀ u : State, u.inst = s.inst → u.mem = s.mem → ∀ k,
          readBytes u addr n k = .fault .memoryUnanswered := by
        intro u hi hm k; simp [readBytes, hi, hm, hf, hb]
      rw [he (s.withOutside ws sc rs gs) rfl rfl, he s rfl rfl]; rfl
    | some bs =>
      have he : ∀ u : State, u.inst = s.inst → u.mem = s.mem → ∀ k,
          readBytes u addr n k = k bs { u with readLog := u.readLog ++ [⟨addr.toNat, n⟩] } := by
        intro u hi hm k; simp [readBytes, hi, hm, hf, hb]
      rw [he (s.withOutside ws sc rs gs) rfl rfl, he s rfl rfl]
      exact hk bs { s with readLog := s.readLog ++ [⟨addr.toNat, n⟩] }
  · have he : ∀ u : State, u.inst = s.inst → ∀ k, readBytes u addr n k = .fault .noSuchAddress := by
      intro u hi k; simp only [readBytes, hi, if_neg hf]
    rw [he (s.withOutside ws sc rs gs) rfl, he s rfl]; rfl

theorem readLane_withOutside {ws : List PortWrite} {sc : List HostOp} {rs : List Word}
    {gs : List Agent} (s : State) (addr : Int) (n : Nat) (k k' : Word → State → Out)
    (hk : ∀ v t, k' v (t.withOutside ws sc rs gs) =
      mapNext (State.withOutside ws sc rs gs) (k v t)) :
    readLane (s.withOutside ws sc rs gs) addr n k' =
      mapNext (State.withOutside ws sc rs gs) (readLane s addr n k) :=
  readBytes_withOutside s addr n _ _ fun _ t => hk _ t

theorem readByteIf_withOutside {ws : List PortWrite} {sc : List HostOp} {rs : List Word}
    {gs : List Agent} (c : Bool) (s : State) (addr : Int) (k k' : Word → State → Out)
    (hk : ∀ v t, k' v (t.withOutside ws sc rs gs) =
      mapNext (State.withOutside ws sc rs gs) (k v t)) :
    readByteIf c (s.withOutside ws sc rs gs) addr k' =
      mapNext (State.withOutside ws sc rs gs) (readByteIf c s addr k) := by
  cases c
  · exact hk 0 s
  · exact readBytes_withOutside s addr 1 _ _ fun _ t => hk _ t

/-- A micro-operation does the same whatever stands at the port, in the script, in the results and in
the turns. -/
theorem exec_withOutside {i : Instr} (hm : isMicroOp i = true) (ws : List PortWrite)
    (sc : List HostOp) (rs : List Word) (gs : List Agent) (s : State) :
    exec i (s.withOutside ws sc rs gs) = mapNext (State.withOutside ws sc rs gs) (exec i s) := by
  cases i <;> simp only [isMicroOp, reduceCtorEq] at hm <;> simp only [exec]
  case hCheck =>
    unfold execHCheck
    change (if s.arg1 ≠ 0 ∧ s.bp = false then _ else
      if s.arg1 ≠ 0 ∧ s.runsPastTop = true then _ else _) = _
    split_ifs <;> rfl
  case hShort =>
    refine readByteIf_withOutside _ s _ _ _ fun _ s => ?_
    refine readByteIf_withOutside _ s _ _ _ fun _ s => ?_
    exact readByteIf_withOutside _ s _ _ _ fun _ _ => rfl
  case hMid =>
    unfold execHMid
    dsimp only
    refine readLane_withOutside s _ _ _ _ fun _ s => ?_
    refine readLane_withOutside s _ _ _ _ fun _ s => ?_
    refine readLane_withOutside s _ _ _ _ fun _ s => ?_
    exact readLane_withOutside s _ _ _ _ fun _ _ => rfl
  case hBulkLd =>
    refine readLane_withOutside s _ _ _ _ fun _ s => ?_
    exact readLane_withOutside s _ _ _ _ fun _ _ => rfl
  case hTail =>
    refine readLane_withOutside s _ _ _ _ fun _ s => ?_
    exact readLane_withOutside s _ _ _ _ fun _ _ => rfl
  all_goals rfl

/-- So a read has an answer or none whatever stands there. -/
theorem exec_withOutside_unanswered {i : Instr} (hm : isMicroOp i = true) (ws : List PortWrite)
    (sc : List HostOp) (rs : List Word) (gs : List Agent) (s : State) :
    exec i (s.withOutside ws sc rs gs) = .fault .memoryUnanswered ↔
      exec i s = .fault .memoryUnanswered := by
  rw [exec_withOutside hm]
  cases exec i s <;> simp [mapNext]

/-! ### Steps -/

/-- The instruction of a phase is a micro-operation, and the completing phases have the completing
ones. -/
theorem microOp_phase {p : Phase} {i : Instr} (h : p.microOp = some i) :
    isMicroOp i = true ∧ (i = .mulX ↔ p = .mulX) ∧ (i = .prngX ↔ p = .prngX) ∧
      (i = .hFin2 ↔ p = .hFin2) := by
  cases p <;> cases h <;> decide

/-- A write that is taken touches the host's registers, the latch, `DONE`, `CAUSE` and `PHASE` only. -/
theorem takeWrite_fields (n : RegNum) (v : Word) (s : State) :
    ∃ c d k a0 a1 a2 x1 x2 p, takeWrite n v s =
      { s with cmdl := c, done := d, cause := k, arg0 := a0, arg1 := a1, arg2 := a2, p1 := x1,
               p2 := x2, phase := p } := by
  rcases takeWrite_cases n v s with he | he | he | he | he | he | he <;> rw [he]
  · rcases accept_cases v s with ⟨c, -, he⟩ | ⟨-, he⟩ <;> rw [he] <;>
      exact ⟨_, _, _, _, _, _, _, _, _, rfl⟩
  all_goals exact ⟨_, _, _, _, _, _, _, _, _, rfl⟩

/-- Where the host's next line is a reset, its step is one; elsewhere it takes a write, or it changes
nothing of the block. `s` is the state with the turn, `u` the same without it. -/
theorem hostStep_fields {s u t : State} (hr : hostReady u = true) (he : hostStep u = .next t)
    (hu : u = { s with turns := u.turns })
    (hn : s.resetNext = (s.waiting.isEmpty && s.script.head? == some .reset)) :
    (s.resetNext = true ∧ ∃ v : State, t = resetBlock v ∧ v.inst = s.inst ∧ v.mem = s.mem ∧
      v.readLog = s.readLog) ∨
    (s.resetNext = false ∧
      ((∃ ws sc rs m gs, t = { s with waiting := ws, script := sc, results := rs, mem := m,
                                      turns := gs } ∧
          ∀ a, s.inMessage a = true → memRead m a = memRead s.mem a) ∨
       (s.phase = .idle ∧ ∃ n v ws sc gs,
          t = takeWrite n v { s with waiting := ws, script := sc, turns := gs }))) := by
  have huw : u.waiting = s.waiting := by rw [hu]
  have hus : u.script = s.script := by rw [hu]
  have hup : u.phase = s.phase := by rw [hu]
  rcases hostStep_next hr he with ⟨w, ws, hw, hp, rfl⟩ | ⟨n, r, ops, hw, hs, -, rfl⟩ |
    ⟨n, v, r, ops, hw, hs, -, rfl⟩ | ⟨ops, hw, hs, rfl | rfl⟩ | ⟨ops, hw, hs, rfl⟩ |
    ⟨a, c, ops, hw, hs, hb, ham, rfl⟩
  · refine .inr ⟨by rw [hn, ← huw, hw]; rfl,
      .inr ⟨hup ▸ hp, w.reg, w.value, ws, u.script, u.turns, ?_⟩⟩
    rw [hu]
  · refine .inr ⟨by rw [hn, ← hus, hs]; simp,
      .inl ⟨u.waiting, ops, u.results ++ [portRead n u], u.mem, u.turns, ?_, ?_⟩⟩
    · rw [hu]
    · rw [hu]; exact fun _ _ => rfl
  · refine .inr ⟨by rw [hn, ← hus, hs]; simp, ?_⟩
    by_cases hp : u.phase = .idle
    · refine .inr ⟨hup ▸ hp, n, v, u.waiting, ops, u.turns, ?_⟩
      rw [portWrite_idle (by exact hp), hu]
    · refine .inl ⟨u.waiting ++ [⟨n, v⟩], ops, u.results, u.mem, u.turns, ?_, ?_⟩
      · rw [portWrite_notIdle (by exact hp), hu]; rfl
      · rw [hu]; exact fun _ _ => rfl
  · refine .inr ⟨by rw [hn, ← hus, hs]; simp,
      .inl ⟨t.waiting, t.script, t.results, t.mem, t.turns, ?_, ?_⟩⟩
    · rw [hu]
    · rw [hu]; exact fun _ _ => rfl
  · refine .inr ⟨by rw [hn, ← hus, hs]; simp,
      .inl ⟨u.waiting, ops, u.results ++ [portRead 1 u], u.mem, u.turns, ?_, ?_⟩⟩
    · rw [hu]
    · rw [hu]; exact fun _ _ => rfl
  · refine .inl ⟨by rw [hn, ← huw, ← hus, hw, hs]; rfl, _, rfl, ?_, ?_, ?_⟩ <;> rw [hu]
  · refine .inr ⟨by rw [hn, ← hus, hs]; simp,
      .inl ⟨u.waiting, ops, u.results, memWrite u.mem a c, u.turns, ?_, ?_⟩⟩
    · rw [hu]
    · intro x hx
      have hne : x ≠ a := by
        rintro rfl
        have : u.inMessage x = s.inMessage x := by rw [hu]; rfl
        rw [this, hx] at hb
        cases hb
      rw [memRead_memWrite, if_neg hne, hu]

/-- Every step, by the fields it may change: a reset, the core's micro-operation, a step that changes
the port, the script, the results and memory (but no byte of the message being hashed) only, or a write
that is taken. -/
theorem step_fields {s t : State} (h : step s = .next t) :
    (s.resetNext = true ∧ ∃ u : State, t = resetBlock u ∧ u.inst = s.inst ∧ u.mem = s.mem ∧
      u.readLog = s.readLog) ∨
    (s.resetNext = false ∧
      ((s.busy = true ∧ ∃ i, s.phase.microOp = some i ∧ exec i (afterTurn s) = .next t) ∨
       (∃ ws sc rs m gs, t = { s with waiting := ws, script := sc, results := rs, mem := m,
                                      turns := gs } ∧
          ∀ a, s.inMessage a = true → memRead m a = memRead s.mem a) ∨
       (s.phase = .idle ∧ ∃ n v ws sc gs,
          t = takeWrite n v { s with waiting := ws, script := sc, turns := gs }))) := by
  have hrn := resetNext_eq s
  unfold step at h
  split at h
  · rename_i g gs hg
    cases g with
    | core =>
      have hn : s.resetNext = false := by rw [hrn, hg]
      simp only [agentStep] at h
      split at h
      · rename_i hb
        obtain ⟨i, hi, he⟩ := coreStep_next h
        exact .inr ⟨hn, .inl ⟨busy_of_coreReady (s := { s with turns := gs }) hb, i, hi,
          by simpa [afterTurn, hg] using he⟩⟩
      · cases h
        exact .inr ⟨hn, .inr (.inl ⟨_, _, _, _, _, rfl, fun _ _ => rfl⟩)⟩
    | reset =>
      simp only [agentStep] at h
      cases h
      exact .inl ⟨by rw [hrn, hg], _, rfl, rfl, rfl, rfl⟩
    | host =>
      simp only [agentStep] at h
      split at h
      · rename_i hr
        rcases hostStep_fields (s := s) hr h rfl (by rw [hrn, hg]) with h1 | ⟨hn, h1⟩
        · exact .inl h1
        · exact .inr ⟨hn, .inr h1⟩
      · rename_i hr
        cases h
        refine .inr ⟨?_, .inr (.inl ⟨_, _, _, _, _, rfl, fun _ _ => rfl⟩)⟩
        rw [hrn, hg]
        simp only [hostReady] at hr
        revert hr
        cases s.waiting with
        | cons w ws => intro; rfl
        | nil =>
          cases s.script with
          | nil => intro; rfl
          | cons op ops => cases op <;> simp
  · rename_i hg
    unfold freeStep at h
    split at h
    · rename_i hb
      obtain ⟨i, hi, he⟩ := coreStep_next h
      have ha : afterTurn s = s := by
        unfold afterTurn; rw [hg]; cases s; simp_all
      exact .inr ⟨by rw [hrn, hg]; simp [hb],
        .inl ⟨busy_of_coreReady hb, i, hi, by rw [ha]; exact he⟩⟩
    · rename_i hb
      split at h
      · rename_i hr
        rcases hostStep_fields (s := s) hr h rfl (by rw [hrn, hg]; simp [hb]) with h1 | ⟨hn, h1⟩
        · exact .inl h1
        · exact .inr ⟨hn, .inr h1⟩
      · cases h

end Sys2Proof.Machine
end

