-- ==== Sys2Proof/Laws/PerInstr.lean ====
section
/-! SUPPORT. Families of statements made once per instruction: the case split is by constructor. -/

/-- An encoded thing lies in its format: a command word has its reserved bits clear (30_encoding R93), a
port request carries data exactly when it writes (R91), a phase code is not `IDLE` or `FAULT` (R100). -/
def Sys2Proof.Laws.Format.fits : Sys2Proof.Encoded → Bool
  | .command w => Sys2Proof.reservedField w == 0
  | .port r => r.wellFormed
  | .phase c => c != 0 && c != 15

/-- An instruction is well formed and its encoding lies in its format. -/
def Sys2Proof.Laws.Format.Statement (i : Sys2Proof.Instr) : Prop :=
  i.wellFormed = true ∧ Sys2Proof.Laws.Format.fits (Sys2Proof.encode i) = true

namespace Sys2Proof.Laws.Format

theorem mul : Statement .mul := ⟨rfl, by decide⟩

theorem hash (bp sv : Bool) : Statement (.hash bp sv) :=
  ⟨rfl, by cases bp <;> cases sv <;> decide⟩

theorem pnext : Statement .pnext := ⟨rfl, by decide⟩

theorem rd (n : RegNum) : Statement (.rd n) :=
  ⟨rfl, by revert n; decide⟩

theorem wr (n : RegNum) (value : Word) : Statement (.wr n value) := by
  refine ⟨rfl, ?_⟩
  have h : (1#1 ++ n).getLsbD 4 = true := by revert n; decide
  show ((1#1 ++ n).getLsbD 4 == true) = true
  rw [h]; rfl

theorem mulX : Statement .mulX := ⟨rfl, by decide⟩
theorem prngX : Statement .prngX := ⟨rfl, by decide⟩
theorem hCheck : Statement .hCheck := ⟨rfl, by decide⟩
theorem hInit : Statement .hInit := ⟨rfl, by decide⟩
theorem hSeed : Statement .hSeed := ⟨rfl, by decide⟩
theorem hSelect : Statement .hSelect := ⟨rfl, by decide⟩
theorem hShort : Statement .hShort := ⟨rfl, by decide⟩
theorem hMid : Statement .hMid := ⟨rfl, by decide⟩
theorem hLong : Statement .hLong := ⟨rfl, by decide⟩
theorem hBulkLd : Statement .hBulkLd := ⟨rfl, by decide⟩
theorem hBulkMx : Statement .hBulkMx := ⟨rfl, by decide⟩
theorem hTail : Statement .hTail := ⟨rfl, by decide⟩
theorem hFin1 : Statement .hFin1 := ⟨rfl, by decide⟩
theorem hFin2 : Statement .hFin2 := ⟨rfl, by decide⟩

end Sys2Proof.Laws.Format
end

