-- ==== Sys2Proof/Laws/Run.lean ====
section
/-! SUPPORT. The pieces that statements about whole commands are put together from: the bytes of a
message in memory, the reads of a loading phase, the lines of a script, the equations of `hash64`. -/

namespace Sys2Proof.Machine

/-! ### The message in memory -/

/-- A block with legal parameters has at most `2^64` addresses (00_scope R7). -/
theorem memSize_le {p : Config.Params} (h : p.legal = true) : p.memSize ≤ 2 ^ 64 := by
  have h2 : 1 ≤ p.addrW ∧ p.addrW ≤ 64 := by simpa [Config.Params.legal] using h
  exact Nat.pow_le_pow_right (by norm_num) h2.2

/-- Any range of a message that memory holds is read as that range. -/
theorem memBytes_of_holdsMessage {s : State} {p : Nat} {msg : List Byte}
    (h : s.holdsMessage p msg) (i n : Nat) (hn : i + n ≤ msg.length) :
    memBytes s.mem (p + i) n = some ((msg.drop i).take n) := by
  refine memBytes_eq_some (by simp; omega) fun j hj => ?_
  have := h (i + j) (by simp at hj; omega)
  rw [Nat.add_assoc, this]
  simp

/-- A byte that is not backed leaves the range it lies in without an answer (20_memory R73). -/
theorem memBytes_none {m : List Host.Cell} {p n a : Nat} (h1 : p ≤ a) (h2 : a < p + n)
    (h : memRead m a = none) : memBytes m p n = none := by
  cases hb : memBytes m p n with
  | none => rfl
  | some bs =>
    obtain ⟨hl, hr⟩ := memBytes_some hb
    have := hr (a - p) (by omega)
    rw [show p + (a - p) = a by omega, h] at this
    cases this

/-- A read after reads: only the log differs from `s`. -/
theorem readBytes_logged {s : State} {a n : Nat} {bs : List Byte} (l : List ReadReq)
    (k : List Byte → State → Out) (hf : a + n ≤ s.inst.memSize)
    (hb : memBytes s.mem a n = some bs) :
    readBytes { s with readLog := l } a n k = k bs { s with readLog := l ++ [⟨a, n⟩] } :=
  readBytes_of_bytes (s := { s with readLog := l }) k hf hb

theorem readLane_logged {s : State} {a n : Nat} {bs : List Byte} (l : List ReadReq)
    (k : Word → State → Out) (hf : a + n ≤ s.inst.memSize) (hb : memBytes s.mem a n = some bs) :
    readLane { s with readLog := l } a n k =
      k (laneValue s.inst.byteOrder bs) { s with readLog := l ++ [⟨a, n⟩] } :=
  readLane_of_bytes (s := { s with readLog := l }) k hf hb

/-- Inside message memory a read either goes on with its bytes or has no answer. -/
theorem readBytes_cases {s : State} {addr : Int} (p n : Nat) (l : List ReadReq)
    (k : List Byte → State → Out) (ha : addr = (p : Nat)) (hf : p + n ≤ s.inst.memSize) :
    readBytes { s with readLog := l } addr n k = .fault .memoryUnanswered ∨
      ∃ bs, memBytes s.mem p n = some bs ∧
        readBytes { s with readLog := l } addr n k =
          k bs { s with readLog := l ++ [⟨p, n⟩] } := by
  subst ha
  cases hb : memBytes s.mem p n with
  | none =>
    left
    have : (0 : Int) ≤ p ∧ (p : Int) + n ≤ s.inst.memSize := by omega
    simp [readBytes, this, hb]
  | some bs => exact .inr ⟨bs, rfl, readBytes_logged l k hf hb⟩

/-! ### Script lines on an idle block -/

/-- With no turn set and nothing waiting, a block that is not busy runs the next script line. -/
theorem step_scriptLine {s : State} {op : HostOp} {ops : List HostOp} (hb : s.busy = false)
    (hw : s.waiting = []) (ht : s.turns = []) (hs : s.script = op :: ops) :
    step s = scriptStep op { s with script := ops } := by
  have hr : hostReady s = true := by
    unfold hostReady; rw [hw, hs]; cases op <;> simp [State.inMessage, hb]
  rw [step_host_free ht (coreReady_of_notBusy hb), if_pos hr]
  simp only [hostStep, hw, hs]

theorem busy_of_idle {s : State} (h : s.phase = .idle) : s.busy = false := by
  rw [State.busy, h]; rfl

theorem step_lineWr {s : State} {n : RegNum} {v : Word} {ops : List HostOp} (hp : s.phase = .idle)
    (hw : s.waiting = []) (ht : s.turns = []) (hs : s.script = lineWr n v :: ops) :
    step s = .next (takeWrite n v { s with script := ops }) := by
  rw [step_scriptLine (busy_of_idle hp) hw ht hs, lineWr, scriptStep,
    issue_of_decode _ (decode_writeRequest n v)]
  simp only [exec, execWr]
  rw [portWrite_idle (by exact hp)]

theorem step_lineRd {s : State} {n : RegNum} {ops : List HostOp} (hp : s.phase = .idle)
    (hw : s.waiting = []) (ht : s.turns = []) (hs : s.script = lineRd n :: ops) :
    step s = .next { s with script := ops, results := s.results ++ [portRead n s] } := by
  rw [step_scriptLine (busy_of_idle hp) hw ht hs, lineRd, scriptStep,
    issue_of_decode _ (decode_readRequest n)]
  rfl

theorem step_lineWait {s : State} {ops : List HostOp} (hp : s.phase = .idle)
    (hw : s.waiting = []) (ht : s.turns = []) (hs : s.script = .wait :: ops) :
    step s = .next { s with script := ops, results := s.results ++ [s.status] } := by
  rw [step_scriptLine (busy_of_idle hp) hw ht hs, scriptStep, if_neg]
  · rfl
  · show ¬ s.status.getLsbD 0 = true
    unfold State.status State.busy State.faulted
    rw [hp]; cases s.cause <;> cases s.done <;> decide

theorem status_completed {s : State} (hp : s.phase = .idle) (hd : s.done = true)
    (hc : s.cause = .noFault) : s.status = 2 := by
  unfold State.status State.busy State.faulted
  rw [hp, hd, hc]; decide

/-! ### `hash64` by path -/

theorem hash64_short (o : Config.ByteOrder) (msg : List Byte) (seed : Word)
    (h : msg.length ≤ 3) :
    Sys2Proof.Machine.hash64 o msg seed =
      finish (seedProduct (BitVec.ofNat 64 msg.length) seed) val01 (shortLane msg) 0 := by
  unfold Sys2Proof.Machine.hash64
  exact if_pos h

theorem hash64_mid (o : Config.ByteOrder) (msg : List Byte) (seed : Word)
    (h3 : ¬ msg.length ≤ 3) (h16 : msg.length ≤ 16) :
    Sys2Proof.Machine.hash64 o msg seed =
      finish (seedProduct (BitVec.ofNat 64 msg.length) seed) val01
        (msgLane o msg 0 4 <<< 32 ||| msgLane o msg (msg.length - 4) 4)
        (msgLane o msg (midOffset msg.length) 4 <<< 32 |||
          msgLane o msg (msg.length - 4 - midOffset msg.length) 4) := by
  unfold Sys2Proof.Machine.hash64
  exact (if_neg h3).trans (if_pos h16)

theorem hash64_long (o : Config.ByteOrder) (msg : List Byte) (seed : Word)
    (h16 : ¬ msg.length ≤ 16) :
    Sys2Proof.Machine.hash64 o msg seed =
      finish
        (bulkLoop o msg (val01 ^^^ (seedProduct (BitVec.ofNat 64 msg.length) seed).1)
          (val10 ^^^ (seedProduct (BitVec.ofNat 64 msg.length) seed).2) msg.length 0 msg.length
          (seedProduct (BitVec.ofNat 64 msg.length) seed))
        (val01 ^^^ (seedProduct (BitVec.ofNat 64 msg.length) seed).1)
        (msgLane o msg (msg.length - 16) 8) (msgLane o msg (msg.length - 8) 8) := by
  unfold Sys2Proof.Machine.hash64
  exact (if_neg (by omega)).trans (if_neg h16)

/-- The first iteration's reads come first. -/
theorem bulkReads_succ (p k : Nat) :
    bulkReads p (k + 1) = [⟨p, 8⟩, ⟨p + 8, 8⟩] ++ bulkReads (p + 16) k := by
  induction k with
  | zero => simp [bulkReads]
  | succ k ih =>
    rw [bulkReads, ih]
    conv_rhs => rw [bulkReads]
    simp only [List.append_assoc]
    rw [show p + 16 * (k + 1) = p + 16 + 16 * k by ring]

end Sys2Proof.Machine
end

