-- ==== Sys2Proof/Tests/Slice0.lean ====
section
/-! SUPPORT. The model's own tests. Expected values come from spec/95_test_vectors.md (V1 to V10), whose
table is named at each test. The second half shows, for every statement with hypotheses, concrete
values that meet all of them. -/

namespace Sys2Proof.Tests

open Sys2Proof Sys2Proof.Machine

/-! ### Helpers -/

/-- Cells with the given bytes from address `a` on. -/
def cellsAt : Nat → List Byte → List Host.Cell
  | _, [] => []
  | a, b :: bs => (a, b) :: cellsAt (a + 1) bs

/-- The pattern message of V5: byte `i` is `i + 1`. -/
def pattern (n : Nat) : List Byte := (List.range n).map fun i => BitVec.ofNat 8 (i + 1)

/-- The bytes of `7 chars` (V1). -/
def sevenChars : List Byte := [0x37, 0x20, 0x63, 0x68, 0x61, 0x72, 0x73]

/-- A block in phase `p` with a `hash.d` latched, `PTR` = 0x1000 and the message in memory. -/
def hashing (p : Phase) (msg : List Byte) : State :=
  { State.reset with
    phase := p, cmdl := 0x0A, arg0 := 0x1000, arg1 := BitVec.ofNat 64 msg.length,
    cur := 0x1000, rem := BitVec.ofNat 64 msg.length, mem := cellsAt 0x1000 msg }

/-- The outcome is a next state of which `p` holds. -/
def after (o : Out) (p : State → Bool) : Bool :=
  match o with
  | .next s => p s
  | .fault _ => false
  | .refused _ => false

/-! ### WellFormed: each check refuses an ill-formed term -/

theorem test_wellFormed_writeWithoutData :
    (⟨0b10010, none⟩ : PortRequest).wellFormed = false ∧
      decode (.port ⟨0b10010, none⟩) = .error .writeWithoutData := by decide

theorem test_wellFormed_readWithData :
    (⟨0b00010, some 1⟩ : PortRequest).wellFormed = false ∧
      decode (.port ⟨0b00010, some 1⟩) = .error .readWithData := by decide

theorem test_wellFormed_placeOutside :
    (HostOp.place (2 ^ 16) 0).wellFormed ⟨16, .little⟩ = false ∧
      (HostOp.place (2 ^ 16 - 1) 0).wellFormed ⟨16, .little⟩ = true := by decide

theorem test_wellFormed_badRequestLine :
    (HostOp.request ⟨0b10010, none⟩).wellFormed ⟨16, .little⟩ = false := by decide

theorem test_legal_params :
    (⟨0, .little⟩ : Config.Params).legal = false ∧ (⟨65, .big⟩ : Config.Params).legal = false ∧
      (⟨1, .little⟩ : Config.Params).legal = true ∧ (⟨64, .big⟩ : Config.Params).legal = true := by
  decide

/-! ### Decoding: words written out from 30_encoding R91, R94, R100 -/

/-- V8's table of command words, legal ones. -/
theorem test_decode_commands :
    decode (.command 0x0000000000000001) = .ok .mul ∧
    decode (.command 0x0000000000000002) = .ok (.hash false false) ∧
    decode (.command 0x000000000000000A) = .ok (.hash true false) ∧
    decode (.command 0x0000000000000012) = .ok (.hash false true) ∧
    decode (.command 0x000000000000001A) = .ok (.hash true true) ∧
    decode (.command 0x0000000000000003) = .ok .pnext := by decide

/-- V8's table of command words, illegal ones. -/
theorem test_decode_illegal :
    [0x0, 0x4, 0x7, 0x8, 0x9, 0xB, 0xC, 0xF, 0x10, 0x11, 0x13, 0x19, 0x1B, 0x1C, 0x1F, 0x20, 0x22,
      0x8000000000000001, 0xFFFFFFFFFFFFFFFF].all
      (fun w => decodeCommand (BitVec.ofNat 64 w) == none) = true := by decide

/-- Headers of P1 and V10: `wr ARG0`, `rd RES1`, `wr` number 9, `rd` number 15. -/
theorem test_decode_port :
    decode (.port ⟨0b10010, some 0x0123456789ABCDEF⟩) = .ok (.wr 2 0x0123456789ABCDEF) ∧
    decode (.port ⟨0b00110, none⟩) = .ok (.rd 6) ∧
    decode (.port ⟨0b11001, some 0x1234⟩) = .ok (.wr 9 0x1234) ∧
    decode (.port ⟨0b01111, none⟩) = .ok (.rd 15) := by decide

/-- The fourteen phase codes of R100, and the two that have no micro-operation. -/
theorem test_decode_phases :
    [0b0001, 0b0010, 0b0011, 0b0100, 0b0101, 0b0110, 0b0111, 0b1000, 0b1001, 0b1010, 0b1011, 0b1100,
      0b1101, 0b1110].map (fun c => decodeTableWord 4 c) =
    [some .mulX, some .prngX, some .hCheck, some .hInit, some .hSeed, some .hSelect, some .hShort,
      some .hMid, some .hLong, some .hBulkLd, some .hBulkMx, some .hTail, some .hFin1,
      some .hFin2] ∧
    decodeTableWord 4 0 = none ∧ decodeTableWord 4 15 = none := by decide

/-- A fetched word is the one that runs: `H_LONG`'s code, and a `wr ARG0` header, after reset. -/
theorem test_fetch :
    step (State.reset.withFetchWord 4 0b1001) =
      exec .hLong { State.reset with phase := .hLong } ∧
    step (State.reset.withFetchWord 5 0b10010) = exec (.wr 2 0) State.reset ∧
    step (State.reset.withFetchWord 64 0x3) = exec .pnext State.reset := ⟨rfl, rfl, rfl⟩

/-! ### The host port (V10, V8) -/

theorem test_rd_reset :
    (List.range 16).all (fun n => portRead (BitVec.ofNat 4 n) State.reset == 0) = true := by decide

theorem test_rd_statusOfFault :
    after (exec (.rd 1) (raiseFault .nullBuf State.reset)) (fun s => s.results == [0x14]) = true := by
  decide

theorem test_wr_arg0 :
    after (exec (.wr 2 0xDEADBEEFCAFEBABE) State.reset)
      (fun s => portRead 2 s == 0xDEADBEEFCAFEBABE && portRead 3 s == 0) = true := by decide

theorem test_wr_waits :
    after (exec (.wr 3 0) { State.reset with phase := .hFin1, arg1 := 7 })
      (fun s => s.arg1 == 7 && s.waiting == [⟨3, 0⟩]) = true := by decide

/-- P6: `wr CMD, 0x9` faults in the accepting step. -/
theorem test_wr_illegalCommand :
    after (exec (.wr 0 0x9) State.reset)
      (fun s => s.phase == .fault && s.cmdl == 0b01001 && s.status == 0x24) = true := by decide

theorem test_mul_accept :
    after (exec .mul { State.reset with done := true })
      (fun s => s.phase == .mulX && s.cmdl == 0b00001 && s.status == 0x1) = true := by decide

theorem test_hash_accept :
    after (exec (.hash true false) State.reset)
      (fun s => s.phase == .hCheck && s.cmdl == 0b01010 && s.bp && !s.sv) = true := by decide

theorem test_pnext_accept :
    after (exec .pnext State.reset) (fun s => s.phase == .prngX && s.cmdl == 0b00011) = true := by
  decide

/-! ### Multiplier and generator (V2, V3) -/

theorem test_mulX :
    after (exec .mulX { State.reset with
        phase := .mulX, arg0 := 0x0123456789ABCDEF, arg1 := 0xFEDCBA9876543210 })
      (fun s => s.res0 == 0x2236D88FE5618CF0 && s.res1 == 0x0121FA00AD77D742 && s.status == 0x2) =
      true := by decide

theorem test_mulX_unsigned :
    after (exec .mulX { State.reset with
        phase := .mulX, arg0 := 0x8000000000000000, arg1 := 0x8000000000000000 })
      (fun s => s.res0 == 0 && s.res1 == 0x4000000000000000) = true := by decide

theorem test_prngX :
    after (exec .prngX { State.reset with
        phase := .prngX, p1 := 0x1C71C71C71C71C72, p2 := 0x38E38E38E38E38E3 })
      (fun s => s.p1 == 0xE6B74F0329161F9B && s.p2 == 0x6522C3F35BA78193 &&
        s.res0 == 0x83958CF072B19E08) = true := by decide

theorem test_prngX_wraps :
    after (exec .prngX { State.reset with
        phase := .prngX, p1 := 0xFFFFFFFFFFFFFFFF, p2 := 0xFFFFFFFFFFFFFFFF })
      (fun s => s.p1 == 0x1C71C71C71C71C74 && s.p2 == 0x38E38E38E38E38E2) = true := by decide

/-! ### The digest, phase by phase (V6, V7, V8) -/

/-- V8's rows of `H_CHECK`, the ones at the edges of the two comparisons. -/
theorem test_hCheck_range :
    ([(64, 0xFFFFFFFFFFFFFFF0, 0x10, Phase.hInit), (64, 0xFFFFFFFFFFFFFFF0, 0x11, .fault),
      (64, 1, 0xFFFFFFFFFFFFFFFF, .hInit), (64, 2, 0xFFFFFFFFFFFFFFFF, .fault),
      (32, 0xFFFFFFF0, 0x10, .hInit), (32, 0xFFFFFFF0, 0x11, .fault),
      (32, 0x100000000, 1, .fault), (32, 0x100000000, 0, .hInit)] :
        List (Nat × Nat × Nat × Phase)).all (fun r =>
      after (exec .hCheck { hashing .hCheck [] with
          inst := ⟨r.1, .little⟩, arg0 := BitVec.ofNat 64 r.2.1, arg1 := BitVec.ofNat 64 r.2.2.1 })
        (fun s => s.phase == r.2.2.2 && (s.phase == .hInit || s.cause == .range))) = true := by
  decide

theorem test_hCheck_nullBufFirst :
    after (exec .hCheck { hashing .hCheck [] with
        cmdl := 0x02, arg0 := 0xFFFFFFFFFFFFFFF0, arg1 := 0x11 })
      (fun s => s.phase == .fault && s.cause == .nullBuf && s.status == 0x14) = true := by decide

theorem test_hInit :
    after (exec .hInit (hashing .hInit sevenChars))
      (fun s => s.s1 == 0x243F6A8885A308D4 && s.s2 == 0x452821E638D01370 &&
        s.ma == 0x5555555555555555 && s.mb == 0xAAAAAAAAAAAAAAAA && s.cur == 0x1000 &&
        s.rem == 7) = true := by decide

/-- V6, empty message with seed `0x0123456789ABCDEF`. -/
theorem test_hSeed :
    after (exec .hSeed { hashing .hSeed [] with
        cmdl := 0x12, arg2 := 0x0123456789ABCDEF, s1 := 0x243F6A8885A308D3,
        s2 := 0x452821E638D01377, ma := 0x5555555555555555, mb := 0xAAAAAAAAAAAAAAAA })
      (fun s => s.s1 == 0xCEE13B41DE92CC7E && s.s2 == 0x0A0B3C39E4399BDF &&
        s.mb == 0xA0A196934E933175) = true := by decide

/-- V6, the same with `SV` = 0: `ARG2` is ignored. -/
theorem test_hSeed_noSeed :
    after (exec .hSeed { hashing .hSeed [] with
        cmdl := 0x02, arg2 := 0x0123456789ABCDEF, s1 := 0x243F6A8885A308D3,
        s2 := 0x452821E638D01377, ma := 0x5555555555555555, mb := 0xAAAAAAAAAAAAAAAA })
      (fun s => s.s1 == 0x4F2006588BE0C315 && s.s2 == 0x09CAC66C371A7852) = true := by decide

theorem test_hSelect :
    [0, 3, 4, 16, 17].map (fun n => pathOf (BitVec.ofNat 64 n)) =
      [Phase.hShort, .hShort, .hMid, .hMid, .hLong] := by decide

theorem test_hShort :
    after (exec .hShort (hashing .hShort [0x61, 0x62, 0x63]))
      (fun s => s.la == 0x0000000000636261 && s.lb == 0 &&
        s.readLog == [⟨0x1000, 1⟩, ⟨0x1001, 1⟩, ⟨0x1002, 1⟩]) = true := by decide

theorem test_hShort_empty :
    after (exec .hShort (hashing .hShort []))
      (fun s => s.la == 0 && s.lb == 0 && s.readLog == []) = true := by decide

theorem test_hMid :
    after (exec .hMid (hashing .hMid (pattern 16)))
      (fun s => s.la == 0x04030201100F0E0D && s.lb == 0x0C0B0A0908070605) = true := by decide

/-- V7: the same path on a `big` instance. -/
theorem test_hMid_big :
    after (exec .hMid { hashing .hMid sevenChars with inst := ⟨64, .big⟩ })
      (fun s => s.la == 0x3720636868617273 && s.lb == 0x3720636868617273) = true := by decide

theorem test_hLong :
    after (exec .hLong { hashing .hLong (pattern 17) with
        s1 := 0x4F3FB2FDE63BE34C, ma := 0x5555555555555555 })
      (fun s => s.ma == 0x1A6AE7A8B36EB619 && s.phase == .hBulkLd) = true := by decide

theorem test_hBulkLd :
    after (exec .hBulkLd (hashing .hBulkLd (pattern 17)))
      (fun s => s.la == 0x0807060504030201 && s.lb == 0x100F0E0D0C0B0A09) = true := by decide

theorem test_hBulkLd_unbacked :
    exec .hBulkLd (hashing .hBulkLd (pattern 15)) = .fault .memoryUnanswered := rfl

/-- V6, 17 bytes, seed 0. -/
theorem test_hBulkMx :
    after (exec .hBulkMx { hashing .hBulkMx (pattern 17) with
        s1 := 0x4F3FB2FDE63BE34C, s2 := 0x09CAC66C371A784B, ma := 0x1A6AE7A8B36EB619,
        mb := 0xA3606CC69DB0D2E1, la := 0x0807060504030201, lb := 0x100F0E0D0C0B0A09 })
      (fun s => s.s1 == 0x251D0C710F8A15F3 && s.s2 == 0xAA8BFCD5899C65F4 && s.cur == 0x1010 &&
        s.rem == 1 && s.phase == .hTail) = true := by decide

/-- V6: with 33 bytes left the loop goes on, with 32 it ends. -/
theorem test_hBulkMx_loop :
    after (exec .hBulkMx { State.reset with rem := 33 }) (fun s => s.phase == .hBulkLd) = true ∧
    after (exec .hBulkMx { State.reset with rem := 32 }) (fun s => s.phase == .hTail) = true := by
  decide

theorem test_hTail :
    after (exec .hTail { hashing .hTail (pattern 17) with cur := 0x1010, rem := 1 })
      (fun s => s.la == 0x0908070605040302 && s.lb == 0x11100F0E0D0C0B0A) = true := by decide

/-- V6, `7 chars`. -/
theorem test_hFin1 :
    after (exec .hFin1 { hashing .hFin1 sevenChars with
        s1 := 0x968C3E831D3B98C0, s2 := 0x09CAC66C371A7851, la := 0x6863203773726168,
        lb := 0x6863203773726168 })
      (fun s => s.s1 == 0xA6569807D419FE68 && s.s2 == 0x6141CBE35B9C0A12) = true := by decide

/-- V1 row 2: A5's own vector. -/
theorem test_hFin2 :
    after (exec .hFin2 { hashing .hFin2 sevenChars with
        s1 := 0xA6569807D419FE68, s2 := 0x6141CBE35B9C0A12, ma := 0x5555555555555555, res1 := 9 })
      (fun s => s.s1 == 0xB8C8EA881E406C4A && s.s2 == 0x5C52E64F3C16D7E6 &&
        s.res0 == 0xE49A0CC72256BBAC && s.res1 == 9 && s.done && s.phase == .idle) = true := by decide

/-! ### The reference function (V5) -/

theorem test_hash64_paths :
    Sys2Proof.Machine.hash64 .little (pattern 3) 0x0123456789ABCDEF = 0x19B6D2B9AAF77F12 ∧
    Sys2Proof.Machine.hash64 .little (pattern 9) 0xFFFFFFFFFFFFFFFF = 0x34FEF382EE3813D0 ∧
    Sys2Proof.Machine.hash64 .big (pattern 16) 0 = 0xF51B1EC41BD57CEA ∧
    Sys2Proof.Machine.hash64 .little (pattern 33) 0x0123456789ABCDEF = 0x48700582617D7628 ∧
    Sys2Proof.Machine.hash64 .big (pattern 48) 0 = 0xA95A04827725776F := by decide

/-! ### Witnesses: values that meet the hypotheses of each statement together -/

/-- O2, one of each encoded kind. -/
theorem witness_EncodeOfDecode :
    decode (.command 0x12) = .ok (.hash false true) ∧ decode (.port ⟨0b01111, none⟩) = .ok (.rd 15) ∧
      decode (.phase 0b1110) = .ok .hFin2 := by decide

/-- O3, a word other than the six. -/
theorem witness_LegalCommandWords :
    ∃ w : Word, w ≠ 0x1 ∧ w ≠ 0x2 ∧ w ≠ 0xA ∧ w ≠ 0x12 ∧ w ≠ 0x1A ∧ w ≠ 0x3 :=
  ⟨0x9, by decide⟩

/-- O5, with no turn set and with the core's turn set. -/
theorem witness_CoreStepRuns :
    (∃ s : State, decode (.phase s.phase.code) = .ok .hFin2 ∧ s.turns = [] ∧
      exec .hFin2 s ≠ .fault .memoryUnanswered) ∧
    (∃ s : State, decode (.phase s.phase.code) = .ok .mulX ∧ s.turns = .core :: [.host] ∧
      exec .mulX { s with turns := [.host] } ≠ .fault .memoryUnanswered) :=
  ⟨⟨hashing .hFin2 [], by decide, rfl, fun h => by cases h⟩,
    ⟨{ State.reset with phase := .mulX, turns := [.core, .host] }, by decide, rfl,
      fun h => by cases h⟩⟩

/-- O6, on a busy block with the host's turn set, and on an idle one with none. -/
theorem witness_HostStepRuns :
    (∃ (s : State) (r : PortRequest), s.waiting = [] ∧ s.script = .request r :: [] ∧
      decode (.port r) = .ok (.rd 1) ∧ s.turns = .host :: []) ∧
    (∃ (s : State) (r : PortRequest), s.waiting = [] ∧ s.script = .request r :: [] ∧
      decode (.port r) = .ok (.wr 2 7) ∧ s.turns = [] ∧ coreReady s = false) :=
  ⟨⟨{ hashing .hSeed [] with script := [.request ⟨0b00001, none⟩], turns := [.host] },
      ⟨0b00001, none⟩, rfl, rfl, by decide, rfl⟩,
    ⟨{ State.reset with script := [.request ⟨0b10010, some 7⟩] }, ⟨0b10010, some 7⟩, rfl, rfl,
      by decide, rfl, rfl⟩⟩

/-- O7: a write of the highest register number; a load phase that is answered, and one that is not. -/
theorem witness_FetchedThing :
    decode (.port ⟨0b11111, some 5⟩) = .ok (.wr 15 5) ∧
    (decode (.phase 0b0111) = .ok .hShort ∧
      exec .hShort { State.reset with phase := .hShort } ≠ .fault .memoryUnanswered) ∧
    (decode (.phase 0b1010) = .ok .hBulkLd ∧
      exec .hBulkLd { State.reset with phase := .hBulkLd } = .fault .memoryUnanswered) :=
  ⟨by decide, ⟨by decide, fun h => by cases h⟩, by decide, rfl⟩

/-- O8: a reset turn on a faulted block; the script's `reset` line on an idle block, and on a busy one
whose host has the turn. -/
theorem witness_ResetLeaves :
    (∃ s : State, s.resetNext = true ∧ s.turns = .reset :: [] ∧ s.phase = .fault) ∧
    (∃ s : State, s.resetNext = true ∧ s.turns = [] ∧ s.phase = .idle) ∧
    (∃ s : State, s.resetNext = true ∧ s.turns = .host :: [] ∧ s.phase = .hSeed) :=
  ⟨⟨{ raiseFault .range State.reset with turns := [.reset] }, rfl, rfl, rfl⟩,
    ⟨{ State.reset with script := [.reset, .wait] }, rfl, rfl, rfl⟩,
    ⟨{ hashing .hSeed [] with script := [.reset], turns := [.host] }, rfl, rfl, rfl⟩⟩

/-- O9: a faulted block whose host reads `STATUS`, and one that is reset. -/
theorem witness_OnlyReset :
    (∃ s t : State, s.phase = .fault ∧ step s = .next t ∧ s.resetNext = false) ∧
    (∃ s t : State, s.phase = .fault ∧ step s = .next t ∧ s.resetNext = true) :=
  ⟨⟨{ raiseFault .range State.reset with script := [lineRd 1] }, _, rfl, rfl, rfl⟩,
    ⟨{ raiseFault .range State.reset with turns := [.reset] }, _, rfl, rfl, rfl⟩⟩

/-- A state of the loop, as a run reaches it: `LEN` = 33 and `REM` = 17. -/
def inLoop : State :=
  { hashing .hBulkMx (pattern 33) with
    cur := 0x1010, rem := 17, ma := val01 ^^^ (seedProduct 33 0).1, mb := val10 ^^^ (seedProduct 33 0).2 }

theorem inLoop_inv : inLoop.Inv where
  params := by decide
  memory := by decide
  memoryFits := by decide
  doneIdle := by decide
  causeFault := by decide
  cursorFits := by decide
  oneWaiting := by decide
  phaseFacts := ⟨⟨by unfold State.hashLatched; decide, .inr ⟨by decide, by decide⟩⟩,
    ⟨by decide, by decide, by decide⟩, by decide, by decide⟩

/-- O11, O12, O13: a state inside the loop meets both invariants and steps. -/
theorem witness_EveryStepKeeps :
    inLoop.Inv ∧ inLoop.RoundConstants ∧ ∃ t, step inLoop = .next t :=
  ⟨inLoop_inv, ⟨rfl, rfl⟩, _, rfl⟩

/-- O14, the clause for the reserved numbers, at both ends of its range. -/
theorem witness_ReadGives : 9 ≤ (9 : RegNum).toNat ∧ 9 ≤ (15 : RegNum).toNat := by decide

/-- O15: a busy state, and one that has completed. -/
theorem witness_StatusIsOneOfSix :
    (inLoop.Inv ∧ inLoop.busy = true) ∧
    ∃ s : State, s.Inv ∧ s.busy = false ∧ s.done = true :=
  ⟨⟨inLoop_inv, rfl⟩, { State.reset with done := true },
    ⟨by decide, by decide, by decide, by decide, by decide, by decide, by decide, trivial⟩,
    rfl, rfl⟩

/-- O16, O17, O18, O24, O27: an idle block; O17's words for each clause. -/
theorem witness_IdleBlock :
    State.reset.phase = .idle ∧
      ∃ w : Word, w ≠ 0x1 ∧ w ≠ 0x2 ∧ w ≠ 0xA ∧ w ≠ 0x12 ∧ w ≠ 0x1A ∧ w ≠ 0x3 :=
  ⟨rfl, 0x20, by decide⟩

/-- O16, the clause for the numbers that no write changes. -/
theorem witness_TakenWrite : (15 : RegNum) = 1 ∨ (15 : RegNum) = 5 ∨ (15 : RegNum) = 6 ∨
    9 ≤ (15 : RegNum).toNat := by decide

/-- O19: a write waits on a busy block, on a faulted one, and on an idle one. -/
theorem witness_WriteWaits :
    (∃ s : State, s.phase ≠ .idle) ∧
    (∃ (s : State) (w : PortWrite), s.waiting = w :: [] ∧ s.turns = .host :: [] ∧
      s.phase ≠ .idle) ∧
    (∃ (s : State) (w : PortWrite), s.waiting = w :: [] ∧ s.turns = .host :: [] ∧
      s.phase = .idle) :=
  ⟨⟨hashing .hFin1 [], by decide⟩,
    ⟨{ raiseFault .nullBuf State.reset with waiting := [⟨3, 0⟩], turns := [.host] }, ⟨3, 0⟩, rfl,
      rfl, by decide⟩,
    ⟨{ State.reset with waiting := [⟨3, 0⟩], turns := [.host] }, ⟨3, 0⟩, rfl, rfl, rfl⟩⟩

/-- O20: `DONE` rises in the step of `MUL_X`. -/
theorem witness_DoneRises :
    ∃ s t : State, step s = .next t ∧ s.done = false ∧ t.done = true :=
  ⟨{ State.reset with phase := .mulX }, _, rfl, rfl, rfl⟩

/-- O21: a step without reset that changes `RES0` and `RES1`. -/
theorem witness_ResultsChange :
    ∃ s t : State, s.resetNext = false ∧ step s = .next t ∧ t.res0 ≠ s.res0 ∧ t.res1 ≠ s.res1 :=
  ⟨{ State.reset with phase := .mulX, arg0 := 0xFFFFFFFFFFFFFFFF, arg1 := 0xFFFFFFFFFFFFFFFF }, _,
    rfl, rfl, by decide, by decide⟩

/-- O22: a busy block whose host sends a write, no reset due. -/
theorem witness_OperandsStandStill :
    ∃ s t : State, s.busy = true ∧ s.resetNext = false ∧ step s = .next t ∧ s.phase ≠ .prngX :=
  ⟨{ hashing .hSeed [] with script := [lineWr 3 0], turns := [.host] }, _, rfl, rfl, rfl,
    by decide⟩

/-- O25, the powers of two at the edges of their range and where the two outcomes meet. -/
theorem witness_ProductLaws :
    (63 ≤ 63 ∧ 0 + 63 ≤ 63) ∧ (63 ≤ 63 ∧ ¬ 63 + 63 ≤ 63) ∧ ¬ 32 + 32 ≤ 63 := by decide

/-- O28: the step of the generator that gives `(0, 0)`, and the next. -/
theorem witness_GeneratorNeverStays :
    ∃ s t u : State, exec .prngX s = .next t ∧ exec .prngX t = .next u ∧ t.p1 = 0 ∧ t.p2 = 0 :=
  ⟨{ State.reset with phase := .prngX, p1 := 0xAAAAAAAAAAAAAAAB }, _, _, rfl, rfl, by decide,
    by decide⟩

/-- O29: a micro-operation other than `PRNG_X` (`mul` and `hash` are named in the statement), and two
states with equal cells. -/
theorem witness_GeneratorAndDigest :
    (isMicroOp .hTail = true ∧ Instr.hTail ≠ .prngX ∧
      ∃ t, exec .hTail { hashing .hTail (pattern 17) with cur := 0x1010, rem := 1 } = .next t) ∧
    ∃ s s' t t' : State, s.p1 = s'.p1 ∧ s.p2 = s'.p2 ∧ s ≠ s' ∧ exec .prngX s = .next t ∧
      exec .prngX s' = .next t' :=
  ⟨⟨rfl, by decide, _, rfl⟩, State.reset, hashing .hFin1 [], _, _, rfl, rfl, by decide, rfl, rfl⟩

/-- O30: `LEN` just over and just at the top of memory, with and without a buffer, and `LEN` = 0. -/
theorem witness_CheckPassesOrFaults :
    (∃ s : State, s.arg1 ≠ 0 ∧ s.cmdl.getLsbD 3 = false) ∧
    (∃ s : State, s.arg1 ≠ 0 ∧ s.cmdl.getLsbD 3 = true ∧
      2 ^ s.inst.addrW + 1 = s.arg0.toNat + s.arg1.toNat) ∧
    (∃ s : State, s.arg1 ≠ 0 ∧ s.cmdl.getLsbD 3 = true ∧
      s.arg0.toNat + s.arg1.toNat = 2 ^ s.inst.addrW) ∧
    (∃ s : State, s.arg1 = 0) :=
  ⟨⟨{ State.reset with cmdl := 0x12, arg1 := 1 }, by decide, by decide⟩,
    ⟨{ State.reset with cmdl := 0x0A, arg0 := 0xFFFFFFFFFFFFFFF0, arg1 := 0x11 }, by decide,
      by decide, by decide⟩,
    ⟨{ State.reset with cmdl := 0x0A, arg0 := 0xFFFFFFFFFFFFFFF0, arg1 := 0x10 }, by decide,
      by decide, by decide⟩,
    ⟨State.reset, rfl⟩⟩

/-- O32, with `SV` set and clear. -/
theorem witness_SeedIsInjected :
    (∃ (s : State) (seed : Word), seed = (if s.cmdl.getLsbD 4 = true then s.arg2 else 0) ∧
      seed = 5) ∧
    (∃ (s : State) (seed : Word), seed = (if s.cmdl.getLsbD 4 = true then s.arg2 else 0) ∧
      seed = 0 ∧ s.arg2 = 5) :=
  ⟨⟨{ hashing .hSeed [] with cmdl := 0x12, arg2 := 5 }, 5, by decide, rfl⟩,
    ⟨{ hashing .hSeed [] with cmdl := 0x02, arg2 := 5 }, 0, by decide, rfl, rfl⟩⟩

/-- O33, the lengths at the edges of the three paths. -/
theorem witness_PathIsChosen :
    (hashing .hSelect (pattern 3)).arg1.toNat ≤ 3 ∧
    4 ≤ (hashing .hSelect (pattern 4)).arg1.toNat ∧ (hashing .hSelect (pattern 16)).arg1.toNat ≤ 16 ∧
    17 ≤ (hashing .hSelect (pattern 17)).arg1.toNat := by decide

/-- O34, three bytes, and the empty message on a block with nothing backed. -/
theorem witness_ShortLane :
    (∃ (s : State) (msg : List Byte), msg.length = s.arg1.toNat ∧ msg.length = 3 ∧
      s.cur.toNat + msg.length ≤ s.inst.memSize ∧ s.holdsMessage s.cur.toNat msg) ∧
    (∃ (s : State) (msg : List Byte), msg.length = s.arg1.toNat ∧ msg.length = 0 ∧ s.arg1 = 0 ∧
      s.holdsMessage s.cur.toNat msg) :=
  ⟨⟨hashing .hShort (pattern 3), pattern 3, by decide, by decide, by decide,
      by unfold State.holdsMessage; decide⟩,
    ⟨hashing .hShort [], [], rfl, rfl, rfl, by unfold State.holdsMessage; decide⟩⟩

/-- O35, the shortest and the longest message of the path, the latter at the top of memory. -/
theorem witness_MidLanes :
    (∃ (s : State) (msg : List Byte), msg.length = s.arg1.toNat ∧ msg.length = 4 ∧
      s.cur.toNat + msg.length ≤ s.inst.memSize ∧ s.holdsMessage s.cur.toNat msg) ∧
    (∃ (s : State) (msg : List Byte), msg.length = s.arg1.toNat ∧ msg.length = 16 ∧
      s.cur.toNat + msg.length = s.inst.memSize ∧ s.holdsMessage s.cur.toNat msg) :=
  ⟨⟨hashing .hMid (pattern 4), pattern 4, by decide, by decide, by decide,
      by unfold State.holdsMessage; decide⟩,
    ⟨{ hashing .hMid (pattern 16) with inst := ⟨12, .little⟩, cur := 0xFF0,
                                       mem := cellsAt 0xFF0 (pattern 16) },
      pattern 16, by decide, by decide, by decide, by unfold State.holdsMessage; decide⟩⟩

/-- O36: `MA` changes in a step of `H_LONG`, and `H_LONG` is entered at the shortest length. -/
theorem witness_LongPath :
    (∃ s t : State, s.resetNext = false ∧ step s = .next t ∧ t.ma ≠ s.ma) ∧
    (∃ s t : State, step s = .next t ∧ t.phase = .hLong ∧ s.phase = .hSelect ∧
      s.arg1.toNat = 17) :=
  ⟨⟨{ hashing .hLong (pattern 17) with s1 := 5 }, _, rfl, rfl, by decide⟩,
    ⟨hashing .hSelect (pattern 17), _, rfl, rfl, rfl, by decide⟩⟩

/-- O37. -/
theorem witness_BulkLoad :
    ∃ (s : State) (x y : List Byte), x.length = 8 ∧ y.length = 8 ∧
      s.cur.toNat + 16 ≤ s.inst.memSize ∧ s.holdsMessage s.cur.toNat (x ++ y) :=
  ⟨hashing .hBulkLd (pattern 17), (pattern 17).take 8, ((pattern 17).drop 8).take 8, by decide,
    by decide, by decide, by unfold State.holdsMessage; decide⟩

/-- O38: `REM` = 17 with the message ending at the top of memory, and a longer rest. -/
theorem witness_BulkMix :
    (∃ s : State, s.inst.legal = true ∧ s.rem.toNat = 17 ∧
      s.cur.toNat + s.rem.toNat = s.inst.memSize) ∧
    (∃ s : State, s.inst.legal = true ∧ s.rem.toNat = 33 ∧
      s.cur.toNat + s.rem.toNat ≤ s.inst.memSize) :=
  ⟨⟨{ State.reset with cur := 0xFFFFFFFFFFFFFFEF, rem := 17 }, by decide, by decide, by decide⟩,
    ⟨{ State.reset with cur := 0x1000, rem := 33 }, by decide, by decide, by decide⟩⟩

/-- O39: `REM` = 1 and `REM` = 16. -/
theorem witness_TailReads :
    (∃ (s : State) (a : Nat) (x y : List Byte), x.length = 8 ∧ y.length = 8 ∧ s.rem = 1 ∧
      a + 16 = s.cur.toNat + s.rem.toNat ∧ a + 16 ≤ s.inst.memSize ∧ s.holdsMessage a (x ++ y)) ∧
    (∃ (s : State) (a : Nat) (x y : List Byte), x.length = 8 ∧ y.length = 8 ∧ s.rem = 16 ∧
      a + 16 = s.cur.toNat + s.rem.toNat ∧ a + 16 ≤ s.inst.memSize ∧ s.holdsMessage a (x ++ y)) :=
  ⟨⟨{ hashing .hTail (pattern 17) with cur := 0x1010, rem := 1 }, 0x1001,
      ((pattern 17).drop 1).take 8, (pattern 17).drop 9, by decide, by decide, rfl, by decide,
      by decide, by unfold State.holdsMessage; decide⟩,
    ⟨{ hashing .hTail (pattern 32) with cur := 0x1010, rem := 16 }, 0x1010,
      ((pattern 32).drop 16).take 8, (pattern 32).drop 24, by decide, by decide, rfl, by decide,
      by decide, by unfold State.holdsMessage; decide⟩⟩

/-- O43, one state for each load phase, the last needed byte not backed. -/
theorem witness_UnbackedByte :
    (∃ (s : State) (a : Nat), memRead s.mem a = none ∧ s.arg1.toNat ≤ 3 ∧
      s.cur.toNat + s.arg1.toNat ≤ s.inst.memSize ∧ s.cur.toNat ≤ a ∧
      a < s.cur.toNat + s.arg1.toNat) ∧
    (∃ (s : State) (a : Nat), memRead s.mem a = none ∧ 4 ≤ s.arg1.toNat ∧ s.arg1.toNat ≤ 16 ∧
      s.cur.toNat + s.arg1.toNat ≤ s.inst.memSize ∧ s.cur.toNat ≤ a ∧
      a < s.cur.toNat + s.arg1.toNat) ∧
    (∃ (s : State) (a : Nat), memRead s.mem a = none ∧ s.cur.toNat + 16 ≤ s.inst.memSize ∧
      s.cur.toNat ≤ a ∧ a < s.cur.toNat + 16) ∧
    (∃ (s : State) (a : Nat), memRead s.mem a = none ∧ 16 ≤ s.cur.toNat + s.rem.toNat ∧
      s.cur.toNat + s.rem.toNat ≤ s.inst.memSize ∧ s.cur.toNat + s.rem.toNat ≤ a + 16 ∧
      a < s.cur.toNat + s.rem.toNat) :=
  ⟨⟨{ hashing .hShort (pattern 2) with arg1 := 3 }, 0x1002, by decide⟩,
    ⟨{ hashing .hMid (pattern 15) with arg1 := 16 }, 0x100F, by decide⟩,
    ⟨hashing .hBulkLd (pattern 15), 0x100F, by decide⟩,
    ⟨{ hashing .hTail (pattern 16) with cur := 0x1010, rem := 1 }, 0x1010, by decide⟩⟩

/-- O44, O45: instructions of both kinds that answer a next state; a write that waits, a check that
passes, and an accepted word that is legal. -/
theorem witness_Frames :
    (∃ t, exec .hMid (hashing .hMid sevenChars) = .next t) ∧
    (∃ t, exec (.wr 2 1) State.reset = .next t) ∧
    (∃ t, exec (.wr 2 1) (hashing .hMid []) = .next t ∧ (hashing .hMid []).phase ≠ .idle) ∧
    (∃ t, exec .hCheck (hashing .hCheck sevenChars) = .next t ∧ t.phase ≠ .fault) ∧
    (∃ t, exec (.wr 0 0x1A) State.reset = .next t ∧ decodeCommand 0x1A ≠ none) :=
  ⟨⟨_, rfl⟩, ⟨_, rfl⟩, ⟨_, rfl, by decide⟩, ⟨_, rfl, by decide⟩, ⟨_, rfl, by decide⟩⟩

/-- O46: a byte of the message, at both its ends, in a step of the host. -/
theorem witness_MessageStandsStill :
    ∃ s t : State, s.busy = true ∧ s.hashLatched ∧ s.arg0.toNat = 0x1000 ∧ s.arg1.toNat = 7 ∧
      s.turns = [.host] ∧ step s = .next t :=
  ⟨{ hashing .hSeed sevenChars with script := [.place 0x1006 9], turns := [.host] }, _, rfl,
    by unfold State.hashLatched; decide, by decide, by decide, rfl, rfl⟩

/-- O47, at the last address of a small memory, and just inside and just past a message being
hashed. -/
theorem witness_PlacedByte :
    (∃ (s : State) (a : Nat) (b : Byte), s.waiting = [] ∧ s.turns = .host :: [] ∧
      s.script = .place a b :: [] ∧ a + 1 = s.inst.memSize ∧ s.inMessage a = false) ∧
    (∃ (s : State) (b : Byte), s.waiting = [] ∧ s.turns = .host :: [] ∧
      s.script = .place 0x1006 b :: [] ∧ 0x1006 < s.inst.memSize ∧ s.inMessage 0x1006 = true ∧
      s.inMessage 0x1007 = false) :=
  ⟨⟨{ State.reset with inst := ⟨4, .big⟩, script := [.place 15 7], turns := [.host] }, 15, 7, rfl,
      rfl, rfl, by decide, by decide⟩,
    ⟨{ hashing .hSeed sevenChars with script := [.place 0x1006 9], turns := [.host] }, 9, rfl, rfl,
      rfl, by decide, by decide, by decide⟩⟩

/-- O48, O49, O50: the checks pass with a message of each path, with the empty message and no buffer,
and two blocks that differ in place and in seed register hold the same message. -/
theorem witness_PassingHash :
    (∃ (s : State) (msg : List Byte), s.inst.legal = true ∧ s.phase = .hCheck ∧ s.turns = [] ∧
      s.checksPass ∧ msg.length = s.arg1.toNat ∧ s.holdsMessage s.arg0.toNat msg ∧
      msg.length = 33) ∧
    (∃ (s s' : State) (msg : List Byte), s.inst.legal = true ∧ s'.inst.legal = true ∧
      s.phase = .hCheck ∧ s'.phase = .hCheck ∧ s.turns = [] ∧ s'.turns = [] ∧ s.checksPass ∧
      s'.checksPass ∧ msg.length = s.arg1.toNat ∧ msg.length = s'.arg1.toNat ∧
      s.holdsMessage s.arg0.toNat msg ∧ s'.holdsMessage s'.arg0.toNat msg ∧ s.seed = s'.seed ∧
      s.inst.byteOrder = s'.inst.byteOrder ∧ s.arg0 ≠ s'.arg0 ∧ s.arg2 ≠ s'.arg2) ∧
    (∃ (s : State) (msg : List Byte), s.inst.legal = true ∧ s.phase = .hCheck ∧ s.turns = [] ∧
      s.checksPass ∧ msg.length = s.arg1.toNat ∧ s.holdsMessage s.arg0.toNat msg ∧
      msg.length = 0 ∧ s.bp = false) :=
  ⟨⟨hashing .hCheck (pattern 33), pattern 33, by decide, rfl, rfl, .inr ⟨by decide, by decide⟩,
      by decide, by unfold State.holdsMessage; decide, by decide⟩,
    ⟨hashing .hCheck sevenChars,
      { hashing .hCheck sevenChars with
        arg0 := 0x20, arg2 := 9, mem := cellsAt 0x20 sevenChars, inst := ⟨8, .little⟩ },
      sevenChars, by decide, by decide, rfl, rfl, rfl, rfl, .inr ⟨by decide, by decide⟩,
      .inr ⟨by decide, by decide⟩, by decide, by decide, by unfold State.holdsMessage; decide,
      by unfold State.holdsMessage; decide, by decide, rfl, by decide, by decide⟩,
    ⟨{ hashing .hCheck [] with cmdl := 0x02 }, [], by decide, rfl, rfl, .inl rfl, rfl,
      by unfold State.holdsMessage; decide, rfl, by decide⟩⟩

/-- O49: the run that the statement is about exists, for the empty message. -/
theorem witness_PassingHashReads :
    ∃ t, run (hashSteps 0) (hashing .hCheck []) = .next t := ⟨_, rfl⟩

/-- O51. -/
theorem witness_ShortDigests : (pattern 3).length ≤ 3 := by decide

/-- O53: a `MUL` that runs, and a `HASH` about to fault on its check, with nothing backed. -/
theorem witness_EveryRunningCommandEnds :
    (∃ s : State, s.Inv ∧ s.busy = true ∧ s.turns = [] ∧ ¬ s.hashLatched ∧ s.mem = []) ∧
    (∃ s : State, s.Inv ∧ s.busy = true ∧ s.turns = [] ∧ ¬ s.checksPass ∧ s.mem = []) :=
  ⟨⟨{ State.reset with phase := .mulX, cmdl := 1 },
      ⟨by decide, by decide, by decide, by decide, by decide, by decide, by decide, rfl⟩,
      rfl, rfl, by unfold State.hashLatched; decide, rfl⟩,
    ⟨{ State.reset with phase := .hCheck, cmdl := 0x12, arg1 := 1 },
      ⟨by decide, by decide, by decide, by decide, by decide, by decide, by decide,
        by unfold State.factsAt State.hashLatched; decide⟩,
      rfl, rfl, by unfold State.checksPass; decide, rfl⟩⟩

/-- O52, O53: a load phase of a state that meets the invariant, its message backed. -/
theorem witness_EveryRead :
    ∃ s t : State, s.Inv ∧ step s = .next t ∧ s.busy = true ∧ s.turns = [] ∧
      t.readLog ≠ s.readLog ∧
      (∀ a, s.arg0.toNat ≤ a → a < s.arg0.toNat + s.arg1.toNat →
        ∃ b, memRead s.mem a = some b) := by
  refine ⟨hashing .hShort [0x61], _,
    ⟨by decide, by decide, by decide, by decide, by decide, by decide, by decide,
      ⟨⟨by unfold State.hashLatched; decide, .inr ⟨by decide, by decide⟩⟩, ⟨by decide, by decide⟩,
        by decide⟩⟩,
    rfl, rfl, rfl, by decide, ?_⟩
  intro a h1 h2
  have e1 : (hashing .hShort [0x61]).arg0.toNat = 0x1000 := by decide
  have e2 : (hashing .hShort [0x61]).arg1.toNat = 1 := by decide
  have : a = 0x1000 := by omega
  subst this
  exact ⟨0x61, by decide⟩

/-- O54, O55: an idle block with each script, more lines behind it. -/
theorem witness_Scripts :
    (∃ (s : State) (rest : List HostOp), s.phase = .idle ∧ s.waiting = [] ∧ s.turns = [] ∧
      s.cause = .noFault ∧ s.script = scriptMul64 3 5 ++ rest ∧ rest ≠ []) ∧
    (∃ (s : State) (rest : List HostOp), s.phase = .idle ∧ s.waiting = [] ∧ s.turns = [] ∧
      s.script = scriptSeed 1 2 ++ rest ∧ rest ≠ []) ∧
    (∃ (s : State) (rest : List HostOp), s.phase = .idle ∧ s.waiting = [] ∧ s.turns = [] ∧
      s.cause = .noFault ∧ s.script = scriptNext ++ rest ∧ rest ≠ []) :=
  ⟨⟨{ State.reset with script := scriptMul64 3 5 ++ [lineRd 1] }, [lineRd 1], rfl, rfl, rfl, rfl,
      rfl, by decide⟩,
    ⟨{ State.reset with script := scriptSeed 1 2 ++ scriptNext }, scriptNext, rfl, rfl, rfl, rfl,
      by decide⟩,
    ⟨{ State.reset with script := scriptNext ++ [lineRd 7] }, [lineRd 7], rfl, rfl, rfl, rfl, rfl,
      by decide⟩⟩

/-- An idle block with `7 chars` in memory and a script. -/
def readyTo (ops : List HostOp) : State :=
  { State.reset with mem := cellsAt 0x1000 sevenChars, script := ops }

/-- O56: an idle block with each of the three scripts, a message in memory for the first two. -/
theorem witness_HashScripts :
    (∃ (s : State) (ptr len seed : Word) (msg : List Byte) (rest : List HostOp),
      s.inst.legal = true ∧ s.phase = .idle ∧ s.waiting = [] ∧ s.turns = [] ∧ s.cause = .noFault ∧
      s.script = scriptHash64 ptr len seed ++ rest ∧ msg.length = len.toNat ∧
      ptr.toNat + len.toNat ≤ s.inst.memSize ∧ s.holdsMessage ptr.toNat msg ∧ msg.length = 7) ∧
    (∃ (s : State) (ptr len : Word) (msg : List Byte) (rest : List HostOp),
      s.inst.legal = true ∧ s.phase = .idle ∧ s.waiting = [] ∧ s.turns = [] ∧ s.cause = .noFault ∧
      s.script = scriptHash64D ptr len ++ rest ∧ msg.length = len.toNat ∧
      ptr.toNat + len.toNat ≤ s.inst.memSize ∧ s.holdsMessage ptr.toNat msg ∧ msg.length = 7) ∧
    (∃ (s : State) (seed : Word) (rest : List HostOp),
      s.inst.legal = true ∧ s.phase = .idle ∧ s.waiting = [] ∧ s.turns = [] ∧ s.cause = .noFault ∧
      s.script = scriptHash64N seed ++ rest ∧ rest ≠ []) :=
  ⟨⟨readyTo (scriptHash64 0x1000 7 5), 0x1000, 7, 5, sevenChars, [], by decide, rfl, rfl, rfl, rfl,
      rfl, by decide, by decide, by unfold State.holdsMessage; decide, by decide⟩,
    ⟨readyTo (scriptHash64D 0x1000 7), 0x1000, 7, sevenChars, [], by decide, rfl, rfl, rfl, rfl,
      rfl, by decide, by decide, by unfold State.holdsMessage; decide, by decide⟩,
    ⟨readyTo (scriptHash64N 5 ++ [.reset]), 5, [.reset], by decide, rfl, rfl, rfl, rfl, rfl,
      by decide⟩⟩

/-- A `HASH` of sixteen bytes of which the platform backs fifteen. -/
def stuckHash : State := { hashing .hMid (pattern 15) with arg1 := 16, rem := 16 }

theorem stuckHash_inv : stuckHash.Inv where
  params := by decide
  memory := by decide
  memoryFits := by decide
  doneIdle := by decide
  causeFault := by decide
  cursorFits := by decide
  oneWaiting := by decide
  phaseFacts := ⟨⟨by unfold State.hashLatched; decide, .inr ⟨by decide, by decide⟩⟩,
    ⟨by decide, by decide⟩, by decide, by decide⟩

/-- 20_memory R73: beside the stuck command the host still reads `STATUS` as 1, and its `reset` line
frees the block; with nothing else to do nobody has a step. -/
theorem test_stuck :
    after (step { stuckHash with script := [lineRd 1] })
      (fun s => s.results == [1] && s.phase == .hMid) = true ∧
    after (step { stuckHash with script := [.reset] }) (fun s => s.phase == .idle) = true ∧
    step stuckHash = .fault .memoryUnanswered := ⟨by decide, by decide, rfl⟩

/-- O57: the stuck command with nothing else to do, with a read in the host's turn, and with a reset
line and no turn set. -/
theorem witness_UnansweredRead :
    (∃ s : State, decode (.phase s.phase.code) = .ok .hMid ∧
      exec .hMid s = .fault .memoryUnanswered ∧ s.turns = [] ∧ hostReady s = false) ∧
    (∃ s : State, decode (.phase s.phase.code) = .ok .hMid ∧
      exec .hMid s = .fault .memoryUnanswered ∧ s.waiting = [] ∧
      s.script = [.request (readRequest 15)] ∧ s.turns = [.host]) ∧
    (∃ s : State, decode (.phase s.phase.code) = .ok .hMid ∧
      exec .hMid s = .fault .memoryUnanswered ∧ s.waiting = [] ∧ s.script = [.reset] ∧
      s.turns = []) :=
  ⟨⟨stuckHash, by decide, rfl, rfl, by decide⟩,
    ⟨{ stuckHash with script := [lineRd 15], turns := [.host] }, by decide, rfl, rfl, rfl, rfl⟩,
    ⟨{ stuckHash with script := [.reset] }, by decide, rfl, rfl, rfl, rfl⟩⟩

/-- O58: a step of the host beside the stuck command. -/
theorem witness_StuckCommand :
    ∃ s t : State, s.Inv ∧ decode (.phase s.phase.code) = .ok .hMid ∧
      exec .hMid s = .fault .memoryUnanswered ∧ s.resetNext = false ∧ step s = .next t :=
  ⟨{ stuckHash with script := [lineRd 5] }, _,
    ⟨by decide, by decide, by decide, by decide, by decide, by decide, by decide,
      stuckHash_inv.phaseFacts⟩, by decide, rfl, rfl, rfl⟩

/-- O59: the host sends a write while a `HASH` runs. -/
theorem witness_HostTurn :
    ∃ s t : State, s.busy = true ∧ s.turns = .host :: [] ∧ s.resetNext = false ∧
      step s = .next t ∧ s.hashLatched ∧ s.arg0.toNat = 0x1000 ∧ s.arg1.toNat = 7 :=
  ⟨{ hashing .hSeed sevenChars with script := [lineWr 3 0], turns := [.host] }, _, rfl, rfl, rfl,
    rfl, by unfold State.hashLatched; decide, by decide, by decide⟩

end Sys2Proof.Tests
end

section
/-! The scope of a built block (00_scope R7): its parameters are fixed for good. -/

namespace Sys2Proof.Machine

/-- The parameters are no register of the port (10_state R37). -/
theorem takeWrite_inst (n : RegNum) (v : Word) (s : State) : (takeWrite n v s).inst = s.inst := by
  obtain ⟨_, _, _, _, _, _, _, _, _, he⟩ := takeWrite_fields n v s
  rw [he]

/-- Settles O13, by the four kinds of step: a reset keeps the parameters, no micro-operation writes
them, and neither the host's other lines nor a taken write reach them. -/
theorem noStepChangesTheParameters : Obligations.NoStepChangesTheParameters := by
  intro s t h
  rcases step_fields h with ⟨-, u, rfl, hu, -, -⟩ |
    ⟨-, ⟨-, i, hi, he⟩ | ⟨_, _, _, _, _, rfl, -⟩ | ⟨-, n, v, _, _, _, rfl⟩⟩
  · rw [resetBlock_inst, hu]
  · obtain ⟨hm, -, -, -⟩ := microOp_phase hi
    obtain ⟨-, -, -, -, hinst, -⟩ := microOp_frame hm he
    exact hinst
  · rfl
  · exact takeWrite_inst n v _

end Sys2Proof.Machine
end

section
/-! What an instruction leaves alone, register by register (10_state R43): the writes of the port by the
number they name, and the write matrix. -/

namespace Sys2Proof.Machine

/-! ### The writes of the port -/

/-- A taken write by its register number: each number that has a row writes its own register, and the
others nothing (44_host_port R246, R247). -/
theorem takeWrite_byNumber (n : RegNum) (v : Word) (s : State) :
    (n = 0 ∧ takeWrite n v s = accept v s) ∨
    (n = 2 ∧ takeWrite n v s = { s with arg0 := v }) ∨
    (n = 3 ∧ takeWrite n v s = { s with arg1 := v }) ∨
    (n = 4 ∧ takeWrite n v s = { s with arg2 := v }) ∨
    (n = 7 ∧ takeWrite n v s = { s with p1 := v }) ∨
    (n = 8 ∧ takeWrite n v s = { s with p2 := v }) ∨
    takeWrite n v s = s := by
  have number : ∀ k : Nat, n.toNat = k → n = BitVec.ofNat 4 k := fun k hk => by simp [← hk]
  unfold takeWrite
  split
  case h_1 h => exact .inl ⟨number _ h, rfl⟩
  case h_2 h => exact .inr (.inl ⟨number _ h, rfl⟩)
  case h_3 h => exact .inr (.inr (.inl ⟨number _ h, rfl⟩))
  case h_4 h => exact .inr (.inr (.inr (.inl ⟨number _ h, rfl⟩)))
  case h_5 h => exact .inr (.inr (.inr (.inr (.inl ⟨number _ h, rfl⟩))))
  case h_6 h => exact .inr (.inr (.inr (.inr (.inr (.inl ⟨number _ h, rfl⟩)))))
  case h_7 => exact .inr (.inr (.inr (.inr (.inr (.inr rfl)))))

/-- Accept of a legal word leaves `CAUSE` (60_exceptions R264 is the only fault of accept). -/
theorem accept_cause_of_legal {w : Word} (hw : decodeCommand w ≠ none) (s : State) :
    (accept w s).cause = s.cause := by
  rcases accept_cases w s with ⟨c, -, he⟩ | ⟨hn, -⟩
  · rw [he]
  · exact absurd hn hw

/-- The columns of the write matrix for a write that the port takes. -/
theorem takeWrite_columns (n : RegNum) (v : Word) (s : State) :
    (n ≠ 0 → (takeWrite n v s).phase = s.phase) ∧ (n ≠ 0 → (takeWrite n v s).cmdl = s.cmdl) ∧
    (n ≠ 0 → (takeWrite n v s).done = s.done) ∧
    ((n = 0 → decodeCommand v ≠ none) → (takeWrite n v s).cause = s.cause) ∧
    (n ≠ 2 → (takeWrite n v s).arg0 = s.arg0) ∧ (n ≠ 3 → (takeWrite n v s).arg1 = s.arg1) ∧
    (n ≠ 4 → (takeWrite n v s).arg2 = s.arg2) ∧ (n ≠ 7 → (takeWrite n v s).p1 = s.p1) ∧
    (n ≠ 8 → (takeWrite n v s).p2 = s.p2) := by
  rcases takeWrite_byNumber n v s with ⟨rfl, he⟩ | ⟨rfl, he⟩ | ⟨rfl, he⟩ | ⟨rfl, he⟩ | ⟨rfl, he⟩ |
    ⟨rfl, he⟩ | he <;> rw [he]
  · refine ⟨absurd rfl, absurd rfl, absurd rfl, fun h => accept_cause_of_legal (h rfl) s, ?_⟩
    rcases accept_cases v s with ⟨c, -, ha⟩ | ⟨-, ha⟩ <;> rw [ha] <;> simp
  all_goals simp

/-- A row of the port other than `rd` is one write: `wr` of its own number and value, or a command of its
word to `CMD` (30_encoding R102). -/
def issuesWrite (i : Instr) (n : RegNum) (v : Word) : Prop :=
  i = .wr n v ∨ ∃ c : Command, i = c.toInstr ∧ n = 0 ∧ v = c.word

theorem exec_portRow {i : Instr} {s t : State} (hm : isMicroOp i = false) (h : exec i s = .next t) :
    (∃ n, i = .rd n ∧ t = { s with results := s.results ++ [portRead n s] }) ∨
    ∃ n v, issuesWrite i n v ∧ t = portWrite n v s := by
  cases i <;> simp only [isMicroOp, reduceCtorEq] at hm <;> cases h
  case mul => exact .inr ⟨_, _, .inr ⟨.mul, rfl, rfl, rfl⟩, rfl⟩
  case hash bp sv => exact .inr ⟨_, _, .inr ⟨.hash bp sv, rfl, rfl, rfl⟩, rfl⟩
  case pnext => exact .inr ⟨_, _, .inr ⟨.pnext, rfl, rfl, rfl⟩, rfl⟩
  case rd n => exact .inl ⟨n, rfl, rfl⟩
  case wr n v => exact .inr ⟨n, v, .inl rfl, rfl⟩

theorem Command.issuesCommand_toInstr (c : Command) : issuesCommand c.toInstr = true := by
  cases c <;> rfl

section
variable {i : Instr} {n : RegNum} {v : Word} (hi : issuesWrite i n v)
include hi

theorem issuesWrite.ne_cmd (h : issuesCommand i = false) : n ≠ 0 := by
  rcases hi with rfl | ⟨c, rfl, -, -⟩
  · simpa [issuesCommand] using h
  · simp [Command.issuesCommand_toInstr] at h

theorem issuesWrite.ne_of_ne_wr {k : RegNum} (hk : k ≠ 0) (h : ∀ w, i ≠ .wr k w) : n ≠ k := by
  rcases hi with rfl | ⟨c, rfl, rfl, -⟩
  · rintro rfl; exact h v rfl
  · exact hk.symm

theorem issuesWrite.legal (h : ∀ w, i = .wr 0 w → decodeCommand w ≠ none) (hn : n = 0) :
    decodeCommand v ≠ none := by
  rcases hi with rfl | ⟨c, -, -, rfl⟩
  · exact h v (by rw [hn])
  · simp [decodeCommand_word]

theorem issuesWrite.ne_rd (m : RegNum) : i ≠ .rd m := by
  rcases hi with rfl | ⟨c, rfl, -, -⟩
  · simp
  · cases c <;> simp [Command.toInstr]

end

/-! ### The write matrix -/

/-- Settles O45, row by row: a read keeps only its result, a write of the port is the columns of the
number it writes or is held, and a micro-operation writes the fields of its own update. -/
theorem writeMatrix : Obligations.WriteMatrix := by
  intro i s t h
  cases hm : isMicroOp i with
  | false =>
    rcases exec_portRow hm h with ⟨n, rfl, rfl⟩ | ⟨n, v, hi, rfl⟩
    · simp
    · by_cases hp : s.phase = .idle
      · obtain ⟨hphase, hcmdl, hdone, hcause, h2, h3, h4, h7, h8⟩ := takeWrite_columns n v s
        obtain ⟨_, _, _, _, _, _, _, _, _, he⟩ := takeWrite_fields n v s
        rw [portWrite_idle hp]
        refine ⟨fun _ hc => hphase (hi.ne_cmd hc), fun hc => hcmdl (hi.ne_cmd hc),
          fun hc _ _ _ => hdone (hi.ne_cmd hc), fun _ hl => hcause (hi.legal hl),
          fun hw => h2 (hi.ne_of_ne_wr (by decide) hw),
          fun hw => h3 (hi.ne_of_ne_wr (by decide) hw),
          fun hw => h4 (hi.ne_of_ne_wr (by decide) hw), ?_, ?_,
          fun _ hw => h7 (hi.ne_of_ne_wr (by decide) hw),
          fun _ hw => h8 (hi.ne_of_ne_wr (by decide) hw), ?_⟩
        all_goals rw [he]; simp [hp]
      · rw [portWrite_notIdle hp]
        simp [holdWrite, hp, hi.ne_rd]
  | true =>
    cases i <;> simp only [isMicroOp, reduceCtorEq] at hm <;> simp only [exec] at h
    case hShort => obtain ⟨_, _, _, rfl⟩ := execHShort_next h; simp [issuesCommand]
    case hMid => obtain ⟨_, _, _, rfl⟩ := execHMid_next h; simp [issuesCommand]
    case hTail => obtain ⟨_, _, _, rfl⟩ := execHTail_next h; simp [issuesCommand]
    case hBulkLd => obtain ⟨_, _, _, rfl⟩ := execHBulkLd_next h; simp [issuesCommand]
    case hCheck => unfold execHCheck at h; split_ifs at h <;> cases h <;> simp [issuesCommand]
    all_goals cases h; simp [issuesCommand]

end Sys2Proof.Machine
end

section
/-! The invariant: what a change of the port, of the memory and of the block's registers keeps, and the
steps of every agent. -/

namespace Sys2Proof.Machine

/-! ### What the phases say of the registers -/

theorem busy_eq_false_iff (s : State) : s.busy = false ↔ s.phase = .idle ∨ s.phase = .fault := by
  unfold State.busy
  cases s.phase <;> decide

theorem ne_idle_of_busy {s : State} (h : s.busy = true) : s.phase ≠ .idle := by
  intro hp
  rw [busy_of_idle hp] at h
  cases h

theorem ne_fault_of_busy {s : State} (h : s.busy = true) : s.phase ≠ .fault := by
  intro hp
  rw [(busy_eq_false_iff s).mpr (.inr hp)] at h
  cases h

theorem not_done_of_ne_idle {s : State} (hs : s.Inv) (hp : s.phase ≠ .idle) : s.done = false := by
  simpa using mt hs.doneIdle hp

theorem pathOf_cases (len : Word) :
    (len.toNat ≤ 3 ∧ pathOf len = .hShort) ∨
    (4 ≤ len.toNat ∧ len.toNat ≤ 16 ∧ pathOf len = .hMid) ∨
    (17 ≤ len.toNat ∧ pathOf len = .hLong) := by
  unfold pathOf
  split_ifs with h3 h16
  · exact .inl ⟨h3, rfl⟩
  · exact .inr (.inl ⟨by omega, h16, rfl⟩)
  · exact .inr (.inr ⟨by omega, rfl⟩)

/-- The message of a checked `HASH` that is not empty ends inside message memory. -/
theorem State.checksPass.message_fits {s : State} (h : s.checksPass) (hl : 1 ≤ s.len) :
    s.arg0.toNat + s.arg1.toNat ≤ s.inst.memSize := by
  rcases h with h0 | ⟨-, hf⟩
  · simp [State.len, h0] at hl
  · exact hf

/-- Where `H_INIT` put the cursor, the loop begins (42_digest_engine R188). -/
theorem State.cursorAtStart.inLoop {s : State} (h : s.cursorAtStart) (hp : s.checksPass)
    (hl : 1 ≤ s.len) : s.cursorInLoop := by
  obtain ⟨hcur, hrem⟩ := h
  have hlen : 1 ≤ s.arg1.toNat := hl
  have hfit := hp.message_fits hl
  rw [truncAddr_of_lt (by omega)] at hcur
  simp [State.cursorInLoop, hcur, hrem]

/-- One block further the cursor is still in the loop: neither the sum nor the difference wraps
(42_digest_engine R186, log 8). -/
theorem State.cursorInLoop.advance {s t : State} (h : s.cursorInLoop) (hp : s.checksPass)
    (hleg : s.inst.legal = true) (hr : 16 < s.rem.toNat) (hl : 1 ≤ s.len)
    (hcur : t.cur = truncAddr s.inst (s.cur + 16)) (hrem : t.rem = s.rem - 16)
    (h0 : t.arg0 = s.arg0) (h1 : t.arg1 = s.arg1) :
    t.cursorInLoop ∧ t.cur.toNat = s.cur.toNat + 16 ∧ t.rem.toNat = s.rem.toNat - 16 := by
  obtain ⟨hge, hmod, hend⟩ := h
  have hfit := hp.message_fits hl
  have hsize := memSize_le hleg
  have hsum : (s.cur + 16).toNat = s.cur.toNat + 16 := by
    rw [BitVec.toNat_add]; exact Nat.mod_eq_of_lt (by simp; omega)
  have hc : t.cur.toNat = s.cur.toNat + 16 := by
    rw [hcur, truncAddr_of_lt (by omega), hsum]
  have hd : t.rem.toNat = s.rem.toNat - 16 := by
    rw [hrem, BitVec.toNat_sub_of_le (by rw [BitVec.le_def]; simp; omega)]; rfl
  refine ⟨⟨?_, ?_, ?_⟩, hc, hd⟩
  · rw [h0]; omega
  · rw [h0, hc]; omega
  · rw [h0, h1]; omega

/-! ### The core keeps the invariant -/

/-- Only the completing micro-operations raise `DONE`, and they end in `IDLE` (44_host_port R248). -/
theorem microOp_done_rises {i : Instr} {s t : State} (hm : isMicroOp i = true)
    (h : exec i s = .next t) (hs : s.done = false) (ht : t.done = true) :
    (i = .mulX ∨ i = .prngX ∨ i = .hFin2) ∧ t.phase = .idle := by
  obtain ⟨-, -, -, -, -, -, -, -, -, -, -, -, hdone⟩ := microOp_frame hm h
  have hi : i = .mulX ∨ i = .prngX ∨ i = .hFin2 := by
    by_contra hn
    push Not at hn
    obtain ⟨h1, h2, h3⟩ := hn
    rw [(hdone h1 h2 h3).2, hs] at ht
    cases ht
  refine ⟨hi, ?_⟩
  rcases hi with rfl | rfl | rfl <;> cases h <;> rfl

/-- A micro-operation that ends in `FAULT` names a cause (60_exceptions R262). -/
theorem microOp_fault_cause {i : Instr} {s t : State} (hm : isMicroOp i = true)
    (h : exec i s = .next t) (hf : t.phase = .fault) : t.cause ≠ .noFault := by
  cases i <;> simp only [isMicroOp, reduceCtorEq] at hm <;> simp only [exec] at h
  case hCheck => unfold execHCheck at h; split_ifs at h <;> cases h <;> simp at hf ⊢
  case hShort => obtain ⟨_, _, _, rfl⟩ := execHShort_next h; cases hf
  case hMid => obtain ⟨_, _, _, rfl⟩ := execHMid_next h; cases hf
  case hTail => obtain ⟨_, _, _, rfl⟩ := execHTail_next h; cases hf
  case hBulkLd => obtain ⟨_, _, _, rfl⟩ := execHBulkLd_next h; cases hf
  case hSelect =>
    cases h
    rcases pathOf_cases s.arg1 with ⟨-, hp⟩ | ⟨-, -, hp⟩ | ⟨-, hp⟩ <;> simp [hp] at hf
  case hBulkMx => cases h; simp only at hf; split at hf <;> cases hf
  all_goals cases h; cases hf

theorem microOp_cause_iff {i : Instr} {s t : State} (hm : isMicroOp i = true)
    (h : exec i s = .next t) (hs : s.cause = .noFault) : t.cause = .noFault ↔ t.phase ≠ .fault := by
  obtain ⟨-, -, -, hcause, -⟩ := writeMatrix i s t h
  constructor
  · exact fun hc hf => microOp_fault_cause hm h hf hc
  · intro hf
    rw [hcause (fun _ => hf) (by rintro w rfl; cases hm), hs]

theorem exec_cur {i : Instr} {s t : State} (h : exec i s = .next t) (h1 : i ≠ .hInit)
    (h2 : i ≠ .hBulkMx) : t.cur = s.cur := by
  obtain ⟨-, -, -, -, -, -, -, -, -, -, -, -, -, -, -, hcur, -⟩ := writeMatrix i s t h
  exact (hcur h1 h2).1

/-- `CUR` stays an address: the two micro-operations that write it truncate (10_state R24). -/
theorem exec_cur_lt {i : Instr} {s t : State} (h : exec i s = .next t)
    (hs : s.cur.toNat < s.inst.memSize) : t.cur.toNat < s.inst.memSize := by
  by_cases h1 : i = .hInit
  · subst h1; cases h; exact truncAddr_lt _ _
  by_cases h2 : i = .hBulkMx
  · subst h2; cases h; exact truncAddr_lt _ _
  · rwa [exec_cur h h1 h2]

/-- The checks that `H_CHECK` lets pass (42_digest_engine R172). -/
theorem execHCheck_facts {s t : State} (h : execHCheck s = .next t) (hl : s.hashLatched) :
    t.factsAt t.phase := by
  unfold execHCheck at h
  split_ifs at h with hnull hrange <;> cases h
  · trivial
  · trivial
  · refine ⟨hl, ?_⟩
    by_cases h0 : s.arg1 = 0
    · exact .inl h0
    · have hbp : s.bp = true := by
        by_contra hb
        exact hnull ⟨h0, by simpa using hb⟩
      have hfit : s.arg0.toNat + s.arg1.toNat ≤ s.inst.memSize := by
        by_contra hgt
        exact hrange ⟨h0, decide_eq_true (by omega)⟩
      exact .inr ⟨hbp, hfit⟩

theorem execHBulkMx_facts {s t : State} (h : execHBulkMx s = .next t) (hleg : s.inst.legal = true)
    (hf : s.factsAt .hBulkMx) : t.factsAt t.phase := by
  obtain ⟨hc, hloop, hl, hr⟩ := hf
  cases h
  obtain ⟨hloop', hcur, hrem⟩ := hloop.advance hc.2 hleg hr (by omega)
    (t := { s with cur := truncAddr s.inst (s.cur + 16), rem := s.rem - 16 }) rfl rfl rfl rfl
  obtain ⟨hge, -, -⟩ := hloop
  simp only at hcur hrem ⊢
  split
  case isTrue h16 => exact ⟨hc, hloop', hl, h16⟩
  case isFalse h16 =>
    exact ⟨hc, hloop', hl, by simp only; omega, by simp only; omega, by simp only; omega⟩

/-- Each phase finds what it may rely on (42_digest_engine R174): the phase before it left it. -/
theorem microOp_facts {i : Instr} {s t : State} (hs : s.Inv) (hi : s.phase.microOp = some i)
    (h : exec i s = .next t) : t.factsAt t.phase := by
  have hf := hs.phaseFacts
  cases hp : s.phase <;> rw [hp] at hf hi <;> cases hi
  case mulX => cases h; trivial
  case prngX => cases h; trivial
  case hCheck => exact execHCheck_facts h hf
  case hInit => cases h; exact ⟨hf, rfl, rfl⟩
  case hSeed => cases h; exact hf
  case hSelect =>
    obtain ⟨hc, hst⟩ := hf
    cases h
    rcases pathOf_cases s.arg1 with ⟨hl, he⟩ | ⟨hl, hu, he⟩ | ⟨hl, he⟩ <;> rw [he]
    · exact ⟨hc, hst, hl⟩
    · exact ⟨hc, hst, hl, hu⟩
    · exact ⟨hc, hst, hl⟩
  case hShort => obtain ⟨_, _, _, rfl⟩ := execHShort_next h; exact hf.1
  case hMid => obtain ⟨_, _, _, rfl⟩ := execHMid_next h; exact hf.1
  case hLong =>
    obtain ⟨hc, hst, hl⟩ := hf
    cases h
    have hrem : 17 ≤ s.rem.toNat := by rw [hst.2]; exact hl
    exact ⟨hc, hst.inLoop hc.2 (by omega), hl, hrem⟩
  case hBulkLd => obtain ⟨_, _, _, rfl⟩ := execHBulkLd_next h; exact hf
  case hBulkMx => exact execHBulkMx_facts h hs.params hf
  case hTail => obtain ⟨_, _, _, rfl⟩ := execHTail_next h; exact hf.1
  case hFin1 => cases h; exact hf
  case hFin2 => cases h; trivial

theorem microOp_keeps_inv {i : Instr} {s t : State} (hs : s.Inv) (hi : s.phase.microOp = some i)
    (h : exec i s = .next t) : t.Inv := by
  have hb : s.busy = true := (microOp_isSome_iff_busy s).mp (by simp [hi])
  obtain ⟨hm, -⟩ := microOp_phase hi
  obtain ⟨-, -, -, -, hinst, hmem, hwait, -⟩ := microOp_frame hm h
  have hdone := not_done_of_ne_idle hs (ne_idle_of_busy hb)
  exact {
    params := by rw [hinst]; exact hs.params
    memory := by rw [hmem]; exact hs.memory
    memoryFits := by rw [hinst, hmem]; exact hs.memoryFits
    doneIdle := fun hd => (microOp_done_rises hm h hdone hd).2
    causeFault := microOp_cause_iff hm h (hs.causeFault.mpr (ne_fault_of_busy hb))
    cursorFits := by rw [hinst]; exact exec_cur_lt h hs.cursorFits
    oneWaiting := by rw [hwait]; exact hs.oneWaiting
    phaseFacts := microOp_facts hs hi h }

/-! ### The host and reset keep the invariant -/

/-- The invariant asks of what stands outside the block only memory's form and one waiting write. -/
theorem inv_of_outside {s : State} {ws : List PortWrite} {m : List Host.Cell} (hs : s.Inv)
    (hw : ws.length ≤ 1) (hm : memWf m = true) (hf : memWithin s.inst.memSize m = true)
    (sc : List HostOp) (rs : List Word) (gs : List Agent) :
    State.Inv { s with waiting := ws, script := sc, results := rs, mem := m, turns := gs } where
  params := hs.params
  memory := hm
  memoryFits := hf
  doneIdle := hs.doneIdle
  causeFault := hs.causeFault
  cursorFits := hs.cursorFits
  oneWaiting := hw
  phaseFacts := hs.phaseFacts

theorem inv_afterTurn {s : State} (hs : s.Inv) : (afterTurn s).Inv :=
  inv_of_outside hs hs.oneWaiting hs.memory hs.memoryFits _ _ _

theorem inv_resetBlock {s : State} (hs : s.Inv) : (resetBlock s).Inv where
  params := hs.params
  memory := hs.memory
  memoryFits := hs.memoryFits
  doneIdle := by simp
  causeFault := by simp
  cursorFits := memSize_pos _
  oneWaiting := by simp
  phaseFacts := trivial

/-- An idle block relies on no operand and no cell. -/
theorem inv_of_idle_operands {s : State} (hs : s.Inv) (hp : s.phase = .idle)
    (a0 a1 a2 x1 x2 : Word) :
    State.Inv { s with arg0 := a0, arg1 := a1, arg2 := a2, p1 := x1, p2 := x2 } where
  params := hs.params
  memory := hs.memory
  memoryFits := hs.memoryFits
  doneIdle := hs.doneIdle
  causeFault := hs.causeFault
  cursorFits := hs.cursorFits
  oneWaiting := hs.oneWaiting
  phaseFacts := by simp only [hp]; trivial

theorem firstPhase_ne_fault (c : Command) : Command.firstPhase c ≠ .fault := by
  cases c <;> simp [Command.firstPhase]

/-- The latched bits of a legal word are what the command's first phase relies on (10_state R33). -/
theorem factsAt_firstPhase {c : Command} {s : State} (h : s.cmdl = c.word.extractLsb' 0 5) :
    s.factsAt (Command.firstPhase c) := by
  cases c with
  | mul => exact h.trans (by decide)
  | pnext => exact h.trans (by decide)
  | hash bp sv =>
    simp only [Command.firstPhase, State.factsAt, State.hashLatched, h]
    cases bp <;> cases sv <;> decide

theorem inv_accept {s : State} (hs : s.Inv) (hp : s.phase = .idle) (w : Word) :
    (accept w s).Inv := by
  have hc : s.cause = .noFault := hs.causeFault.mpr (by rw [hp]; simp)
  rcases accept_cases w s with ⟨c, hd, he⟩ | ⟨-, he⟩ <;> rw [he]
  · rw [decodeCommand_eq_some] at hd
    exact {
      params := hs.params
      memory := hs.memory
      memoryFits := hs.memoryFits
      doneIdle := by simp
      causeFault := by simp [hc, firstPhase_ne_fault]
      cursorFits := hs.cursorFits
      oneWaiting := hs.oneWaiting
      phaseFacts := factsAt_firstPhase (by rw [hd]) }
  · exact {
      params := hs.params
      memory := hs.memory
      memoryFits := hs.memoryFits
      doneIdle := by simp
      causeFault := by simp
      cursorFits := hs.cursorFits
      oneWaiting := hs.oneWaiting
      phaseFacts := trivial }

theorem inv_takeWrite {s : State} (hs : s.Inv) (hp : s.phase = .idle) (n : RegNum) (v : Word) :
    (takeWrite n v s).Inv := by
  rcases takeWrite_cases n v s with he | he | he | he | he | he | he <;> rw [he]
  · exact inv_accept hs hp v
  · exact inv_of_idle_operands hs hp v _ _ _ _
  · exact inv_of_idle_operands hs hp _ v _ _ _
  · exact inv_of_idle_operands hs hp _ _ v _ _
  · exact inv_of_idle_operands hs hp _ _ _ v _
  · exact inv_of_idle_operands hs hp _ _ _ _ v
  · exact hs

/-- A write that finds no other waiting is taken or becomes the one that waits (log 12). -/
theorem inv_portWrite {s : State} (hs : s.Inv) (hw : s.waiting = []) (n : RegNum) (v : Word) :
    (portWrite n v s).Inv := by
  by_cases hp : s.phase = .idle
  · rw [portWrite_idle hp]; exact inv_takeWrite hs hp n v
  · rw [portWrite_notIdle hp]
    exact inv_of_outside hs (by simp [hw]) hs.memory hs.memoryFits _ _ _

theorem hostStep_keeps_inv {s t : State} (hs : s.Inv) (hr : hostReady s = true)
    (h : hostStep s = .next t) : t.Inv := by
  have outside := fun sc rs => inv_of_outside hs hs.oneWaiting hs.memory hs.memoryFits sc rs s.turns
  rcases hostStep_next hr h with ⟨w, ws, hw, hp, rfl⟩ | ⟨n, r, ops, -, -, -, rfl⟩ |
    ⟨n, v, r, ops, hw, -, -, rfl⟩ | ⟨ops, -, -, rfl | rfl⟩ | ⟨ops, -, -, rfl⟩ |
    ⟨a, b, ops, -, -, -, ha, rfl⟩
  · have hws : ws.length ≤ 1 := by
      have h1 := hs.oneWaiting
      rw [hw, List.length_cons] at h1
      omega
    exact inv_takeWrite (inv_of_outside hs hws hs.memory hs.memoryFits _ _ _) hp _ _
  · exact outside _ _
  · exact inv_portWrite (outside ops s.results) hw n v
  · exact hs
  · exact outside _ _
  · exact inv_resetBlock (outside ops s.results)
  · exact inv_of_outside hs hs.oneWaiting (memWf_memWrite a b hs.memory)
      (memWithin_memWrite b ha hs.memoryFits) _ _ _

/-- Settles O11, agent by agent: reset, a turn that passes, the core's micro-operation, and the host's
step. -/
theorem everyStepKeepsTheInvariant : Obligations.EveryStepKeepsTheInvariant := by
  intro s t hs h
  have hu := inv_afterTurn hs
  rcases step_next h with ⟨-, rfl⟩ | ⟨-, rfl⟩ | ⟨-, i, hi, he⟩ | ⟨hr, he⟩
  · exact inv_resetBlock hu
  · exact hu
  · exact microOp_keeps_inv hu hi he
  · exact hostStep_keeps_inv hu hr he

end Sys2Proof.Machine
end

section
/-! Where every step of every agent leaves the registers alone: `DONE`, the results, the operands, the
latch and the generator cells. -/

namespace Sys2Proof.Machine

/-- Accept clears `DONE` and no other write reaches it (44_host_port R247). -/
theorem takeWrite_done {n : RegNum} {v : Word} {s : State} (h : (takeWrite n v s).done = true) :
    s.done = true := by
  by_cases hn : n = 0
  · subst hn
    have ha : (takeWrite 0 v s).done = false := by
      change (accept v s).done = false
      rcases accept_cases v s with ⟨c, -, he⟩ | ⟨-, he⟩ <;> rw [he]
    rw [ha] at h
    cases h
  · obtain ⟨-, -, hdone, -⟩ := takeWrite_columns n v s
    rwa [← hdone hn]

/-- Settles O20: of the kinds of step only a micro-operation can raise `DONE`. -/
theorem doneRisesOnlyOnCompletion : Obligations.DoneRisesOnlyOnCompletion := by
  intro s t h hs ht
  rcases step_fields h with ⟨-, u, rfl, -⟩ |
    ⟨-, ⟨-, i, hi, he⟩ | ⟨_, _, _, _, _, rfl, -⟩ | ⟨-, n, v, _, _, _, rfl⟩⟩
  · simp at ht
  · obtain ⟨hm, hmul, hprng, hfin⟩ := microOp_phase hi
    rw [← hmul, ← hprng, ← hfin]
    exact microOp_done_rises hm he hs ht
  · simp [hs] at ht
  · have hd := takeWrite_done ht
    simp [hs] at hd

/-- Settles O21: a micro-operation is the only step that reaches a result, by its frame. -/
theorem resultsChangeOnlyInCompletingSteps : Obligations.ResultsChangeOnlyInCompletingSteps := by
  intro s t hn h
  rcases step_fields h with ⟨hr, -⟩ |
    ⟨-, ⟨-, i, hi, he⟩ | ⟨_, _, _, _, _, rfl, -⟩ | ⟨-, n, v, _, _, _, rfl⟩⟩
  · rw [hn] at hr; cases hr
  · obtain ⟨hm, hmul, hprng, hfin⟩ := microOp_phase hi
    obtain ⟨-, -, -, -, -, -, -, -, -, -, -, hres1, hres0⟩ := microOp_frame hm he
    rw [← hmul, ← hprng, ← hfin]
    constructor
    · intro hne
      by_contra hi
      push Not at hi
      obtain ⟨h1, h2, h3⟩ := hi
      exact hne (hres0 h1 h2 h3).1
    · intro hne
      by_contra hi
      exact hne (hres1 hi)
  · simp
  · obtain ⟨_, _, _, _, _, _, _, _, _, he⟩ := takeWrite_fields n v _
    rw [he]; simp

/-- Settles O22: a busy block takes no write, and its micro-operations leave the operands. -/
theorem operandsStandStillWhileBusy : Obligations.OperandsStandStillWhileBusy := by
  intro s t hb hn h
  rcases step_fields h with ⟨hr, -⟩ |
    ⟨-, ⟨-, i, hi, he⟩ | ⟨_, _, _, _, _, rfl, -⟩ | ⟨hp, -⟩⟩
  · rw [hn] at hr; cases hr
  · obtain ⟨hm, -, hprng, -⟩ := microOp_phase hi
    obtain ⟨hcmdl, h0, h1, h2, -, -, -, -, -, -, hcells, -⟩ := microOp_frame hm he
    exact ⟨h0, h1, h2, hcmdl, fun hp => hcells (mt hprng.mp hp)⟩
  · simp
  · exact absurd hp (ne_idle_of_busy hb)

/-- Settles O5, from the two equations of a core step. -/
theorem coreStepRunsTheDecodedPhase : Obligations.CoreStepRunsTheDecodedPhase := by
  intro s i h
  have hi := microOp_of_decode h
  exact ⟨fun ht => step_core_free ht hi, fun gs ht => step_core_turn ht hi⟩

end Sys2Proof.Machine
end

section
/-! Reset: the step that resets, what it leaves, and the state after it; the values of `STATUS`. -/

namespace Sys2Proof.Machine

/-! ### The step that resets -/

/-- A host whose next line is `reset` resets the block by it. -/
theorem hostStep_reset {s : State}
    (h : (s.waiting.isEmpty && s.script.head? == some .reset) = true) :
    ∃ ops, s.script = .reset :: ops ∧ hostReady s = true ∧
      hostStep s = .next (resetBlock { s with script := ops }) := by
  simp only [Bool.and_eq_true, List.isEmpty_iff, beq_iff_eq, List.head?_eq_some_iff] at h
  obtain ⟨hw, ops, hs⟩ := h
  exact ⟨ops, hs, by simp only [hostReady, hw, hs], by simp only [hostStep, scriptStep, hw, hs]⟩

theorem afterTurn_of_nil {s : State} (h : s.turns = []) : afterTurn s = s := by
  rw [afterTurn, h, List.tail_nil, ← h]

/-- A step that resets, by the reset turn or by the script's line (30_encoding R102, log 20). -/
theorem step_of_resetNext {s : State} (h : s.resetNext = true) :
    (s.turns.head? = some .reset ∧ step s = .next (resetBlock (afterTurn s))) ∨
    (s.turns.head? ≠ some .reset ∧ ∃ ops, s.script = .reset :: ops ∧
      step s = .next (resetBlock { afterTurn s with script := ops })) := by
  rw [resetNext_eq] at h
  split at h
  case h_1 gs hg =>
    exact .inl ⟨by simp [hg], by simp only [step, hg, agentStep, afterTurn, List.tail_cons]⟩
  case h_2 gs hg =>
    obtain ⟨ops, hs, hr, he⟩ := hostStep_reset (s := afterTurn s) h
    refine .inr ⟨by simp [hg], ops, hs, ?_⟩
    rw [← he]
    simp only [afterTurn, hg, List.tail_cons] at hr
    simp [step, hg, agentStep, afterTurn, hr]
  case h_3 => cases h
  case h_4 hg =>
    obtain ⟨hc, hline⟩ := Bool.and_eq_true_iff.mp h
    obtain ⟨ops, hs, hr, he⟩ := hostStep_reset hline
    refine .inr ⟨by simp [hg], ops, hs, ?_⟩
    rw [step_host_free hg (by simpa using hc), if_pos hr, he, afterTurn_of_nil hg]

/-- Every host register of a block after reset reads 0 (70_reset R302). -/
@[simp] theorem portRead_resetBlock (n : RegNum) (s : State) : portRead n (resetBlock s) = 0 := by
  have hstatus : (resetBlock s).status = 0 := by
    unfold State.status State.busy State.faulted
    rw [resetBlock_phase, resetBlock_done, resetBlock_cause]
    decide
  unfold portRead
  split <;> simp [hstatus]

/-- Settles O8: both ways of a reset leave `resetBlock` of a state with the memory, the parameters, the
results and the log of `s`. -/
theorem resetLeavesTheStatedValues : Obligations.ResetLeavesTheStatedValues := by
  intro s h
  rcases step_of_resetNext h with ⟨hg, he⟩ | ⟨hg, ops, hs, he⟩
  · exact ⟨_, he, by simp [afterTurn, exec, execRd, hg]⟩
  · exact ⟨_, he, by simp [afterTurn, exec, execRd, hg, hs]⟩

/-! ### The state after reset -/

theorem inv_reset : State.reset.Inv where
  params := by decide
  memory := rfl
  memoryFits := rfl
  doneIdle := fun _ => rfl
  causeFault := by decide
  cursorFits := memSize_pos _
  oneWaiting := by decide
  phaseFacts := trivial

/-- Settles O10. An idle block has no round constants to keep. -/
theorem resetMeetsTheInvariants : Obligations.ResetMeetsTheInvariants := ⟨inv_reset, trivial⟩

/-! ### The values of `STATUS` -/

theorem status_of_busy {s : State} (hs : s.Inv) (hb : s.busy = true) : s.status = 0x1 := by
  have hd := not_done_of_ne_idle hs (ne_idle_of_busy hb)
  have hc : s.cause = .noFault := hs.causeFault.mpr (ne_fault_of_busy hb)
  have hf : s.faulted = false := by simpa [State.faulted] using ne_fault_of_busy hb
  simp [State.status, hb, hd, hc, hf, Cause.code]

theorem status_of_idle {s : State} (hs : s.Inv) (hp : s.phase = .idle) :
    s.status = if s.done then 0x2 else 0x0 := by
  have hc : s.cause = .noFault := hs.causeFault.mpr (by simp [hp])
  unfold State.status State.busy State.faulted
  rw [hc, hp]
  cases s.done <;> decide

theorem status_of_fault {s : State} (hs : s.Inv) (hp : s.phase = .fault) :
    s.done = false ∧ (s.status = 0x14 ∨ s.status = 0x24 ∨ s.status = 0x34) := by
  have hd := not_done_of_ne_idle hs (by simp [hp])
  have hc : s.cause ≠ .noFault := fun h => hs.causeFault.mp h hp
  refine ⟨hd, ?_⟩
  unfold State.status State.busy State.faulted
  rw [hd, hp]
  revert hc
  cases s.cause <;> decide

/-- Settles O15, for a running, an idle and a faulted block. -/
theorem statusIsOneOfSixValues : Obligations.StatusIsOneOfSixValues := by
  intro s hs
  cases hb : s.busy with
  | true => simp [status_of_busy hs hb]
  | false =>
    rcases (busy_eq_false_iff s).mp hb with hp | hp
    · rw [status_of_idle hs hp]
      cases s.done <;> simp
    · obtain ⟨hd, h | h | h⟩ := status_of_fault hs hp <;> simp [hd, h]

end Sys2Proof.Machine
end

section
/-! The loads of a `HASH`: a range of message memory either holds a byte that the platform does not back,
and then the load has no answer (20_memory R73), or it is backed, and then the load goes on. -/

namespace Sys2Proof.Machine

/-! ### Gaps in message memory -/

/-- Of the `n` addresses from `p` on the platform leaves one without a byte (20_memory R73). -/
def hasGap (m : List Host.Cell) (p n : Nat) : Prop :=
  ∃ a, p ≤ a ∧ a < p + n ∧ memRead m a = none

theorem not_hasGap_zero (m : List Host.Cell) (p : Nat) : ¬ hasGap m p 0 := by
  rintro ⟨a, h1, h2, -⟩
  omega

theorem hasGap.mono {m : List Host.Cell} {p n p' n' : Nat} (h : hasGap m p n) (hp : p' ≤ p)
    (hn : p + n ≤ p' + n') : hasGap m p' n' := by
  obtain ⟨a, h1, h2, ha⟩ := h
  exact ⟨a, by omega, by omega, ha⟩

theorem hasGap_add (m : List Host.Cell) (p j k : Nat) :
    hasGap m p (j + k) ↔ hasGap m p j ∨ hasGap m (p + j) k := by
  constructor
  · rintro ⟨a, h1, h2, ha⟩
    by_cases hj : a < p + j
    · exact .inl ⟨a, h1, hj, ha⟩
    · exact .inr ⟨a, by omega, by omega, ha⟩
  · rintro (h | h)
    · exact h.mono le_rfl (by omega)
    · exact h.mono (by omega) (by omega)

/-- Memories that agree on a range have the same gaps there. -/
theorem hasGap.congr {m m' : List Host.Cell} {p n : Nat} (h : hasGap m p n)
    (he : ∀ a, p ≤ a → a < p + n → memRead m' a = memRead m a) : hasGap m' p n := by
  obtain ⟨a, h1, h2, ha⟩ := h
  exact ⟨a, h1, h2, (he a h1 h2).trans ha⟩

/-- A message that memory holds has no gap. -/
theorem not_hasGap_of_holdsMessage {s : State} {p : Nat} {msg : List Byte}
    (h : s.holdsMessage p msg) : ¬ hasGap s.mem p msg.length := by
  rintro ⟨a, h1, h2, ha⟩
  have hb := h (a - p) (by omega)
  rw [show p + (a - p) = a by omega, ha] at hb
  cases hb

/-- A range has a gap, or all its bytes are there. -/
theorem hasGap_cases (m : List Host.Cell) (p n : Nat) :
    (hasGap m p n ∧ memBytes m p n = none) ∨
    (¬ hasGap m p n ∧ ∃ bs, memBytes m p n = some bs) := by
  by_cases h : hasGap m p n
  · obtain ⟨a, h1, h2, ha⟩ := h
    exact .inl ⟨⟨a, h1, h2, ha⟩, memBytes_none h1 h2 ha⟩
  · refine .inr ⟨h, memBytes_of_backed fun a h1 h2 => Option.ne_none_iff_exists'.mp fun ha => ?_⟩
    exact h ⟨a, h1, h2, ha⟩

/-! ### What a load answers -/

/-- What a load of `s` answers: nothing where `gap` says that a byte it reads is not backed, and else the
next state, with the two lanes, the successor phase `ph` and the reads in the log. -/
def LoadAnswers (s : State) (gap : Prop) (ph : Phase) (log : List ReadReq) (o : Out) : Prop :=
  (gap ∧ o = .fault .memoryUnanswered) ∨
  (¬ gap ∧ ∃ a b, o = .next { s with la := a, lb := b, phase := ph, readLog := log })

section
variable {s : State} {gap : Prop} {ph : Phase} {log : List ReadReq} {o : Out}

theorem LoadAnswers.unanswered_iff (h : LoadAnswers s gap ph log o) :
    o = .fault .memoryUnanswered ↔ gap := by
  rcases h with ⟨hg, rfl⟩ | ⟨hg, a, b, rfl⟩ <;> simp [hg]

theorem LoadAnswers.next (h : LoadAnswers s gap ph log o) (hg : ¬ gap) :
    ∃ a b, o = .next { s with la := a, lb := b, phase := ph, readLog := log } := by
  rcases h with ⟨hg', -⟩ | ⟨-, h⟩
  · exact absurd hg' hg
  · exact h

/-- All reads are answered. -/
theorem loadAnswers_done (s : State) (ph : Phase) (log : List ReadReq) (a b : Word) :
    LoadAnswers s False ph log (.next { s with la := a, lb := b, phase := ph, readLog := log }) :=
  .inr ⟨not_false, a, b, rfl⟩

/-- A read inside message memory, before it the reads `l`, and then the rest of the load. -/
theorem loadAnswers_readBytes {addr : Int} {l : List ReadReq} {k : List Byte → State → Out} (p n : Nat)
    (ha : addr = (p : Nat)) (hf : p + n ≤ s.inst.memSize)
    (hk : ∀ bs, LoadAnswers s gap ph log (k bs { s with readLog := l ++ [⟨p, n⟩] })) :
    LoadAnswers s (hasGap s.mem p n ∨ gap) ph log (readBytes { s with readLog := l } addr n k) := by
  subst ha
  rcases hasGap_cases s.mem p n with ⟨hg, hb⟩ | ⟨hg, bs, hb⟩
  · have hin : (0 : Int) ≤ p ∧ (p : Int) + n ≤ s.inst.memSize := by omega
    exact .inl ⟨.inl hg, by simp [readBytes, hin, hb]⟩
  · rw [readBytes_logged l k hf hb]
    simpa [LoadAnswers, hg] using hk bs

theorem loadAnswers_readLane {addr : Int} {l : List ReadReq} {k : Word → State → Out} (p n : Nat)
    (ha : addr = (p : Nat)) (hf : p + n ≤ s.inst.memSize)
    (hk : ∀ v, LoadAnswers s gap ph log (k v { s with readLog := l ++ [⟨p, n⟩] })) :
    LoadAnswers s (hasGap s.mem p n ∨ gap) ph log (readLane { s with readLog := l } addr n k) :=
  loadAnswers_readBytes p n ha hf fun _ => hk _

theorem loadAnswers_readByteIf {c : Bool} {addr : Int} {l : List ReadReq} {k : Word → State → Out}
    (p : Nat) (ha : addr = (p : Nat)) (hf : c = true → p + 1 ≤ s.inst.memSize)
    (hk : ∀ v, LoadAnswers s gap ph log
      (k v { s with readLog := l ++ if c then [⟨p, 1⟩] else [] })) :
    LoadAnswers s (hasGap s.mem p c.toNat ∨ gap) ph log
      (readByteIf c { s with readLog := l } addr k) := by
  cases c with
  | false => simpa [not_hasGap_zero, readByteIf] using hk 0
  | true => exact loadAnswers_readBytes p 1 ha (hf rfl) fun _ => hk _

end

/-! ### The load phases -/

/-- Two lanes of eight bytes that follow one another, as `H_BULK_LD` and `H_TAIL` read them
(42_digest_engine R184, R190). -/
theorem loadAnswers_twoLanes {s : State} {x y : Int} (p : Nat) (ph : Phase) (hx : x = (p : Nat))
    (hy : y = (p + 8 : Nat)) (hf : p + 16 ≤ s.inst.memSize) :
    LoadAnswers s (hasGap s.mem p 16) ph (s.readLog ++ [⟨p, 8⟩, ⟨p + 8, 8⟩])
      (readLane s x 8 fun a t => readLane t y 8 fun b t =>
        .next { t with la := a, lb := b, phase := ph }) := by
  have hgap : hasGap s.mem p 16 ↔ hasGap s.mem p 8 ∨ hasGap s.mem (p + 8) 8 ∨ False := by
    simpa using hasGap_add s.mem p 8 8
  rw [hgap, List.append_cons]
  exact loadAnswers_readLane p 8 hx (by omega) fun a =>
    loadAnswers_readLane (p + 8) 8 hy (by omega) fun b => loadAnswers_done s ph _ a b

theorem execHBulkLd_answers {s : State} (hf : s.cur.toNat + 16 ≤ s.inst.memSize) :
    LoadAnswers s (hasGap s.mem s.cur.toNat 16) .hBulkMx
      (s.readLog ++ [⟨s.cur.toNat, 8⟩, ⟨s.cur.toNat + 8, 8⟩]) (execHBulkLd s) :=
  loadAnswers_twoLanes s.cur.toNat .hBulkMx rfl rfl hf

theorem execHTail_answers {s : State} {p : Nat} (hp : s.cur.toNat + s.rem.toNat = p + 16)
    (hf : p + 16 ≤ s.inst.memSize) :
    LoadAnswers s (hasGap s.mem p 16) .hFin1 (s.readLog ++ [⟨p, 8⟩, ⟨p + 8, 8⟩]) (execHTail s) :=
  loadAnswers_twoLanes p .hFin1 (by simp only [State.curNat]; omega)
    (by simp only [State.curNat]; omega) hf

/-- The reads of a message of at most three bytes, one byte after the other (20_memory R71). -/
theorem messageReads_short {len : Nat} (p : Nat) (h : len ≤ 3) :
    messageReads p len = (if decide (1 ≤ len) then [⟨p, 1⟩] else []) ++
      (if decide (2 ≤ len) then [⟨p + 1, 1⟩] else []) ++
      (if decide (len = 3) then [⟨p + 2, 1⟩] else []) := by
  interval_cases len <;> rfl

theorem hasGap_short {m : List Host.Cell} {p len : Nat} (h : len ≤ 3) :
    hasGap m p len ↔ hasGap m p (decide (1 ≤ len)).toNat ∨
      hasGap m (p + 1) (decide (2 ≤ len)).toNat ∨ hasGap m (p + 2) (decide (len = 3)).toNat ∨
      False := by
  interval_cases len
  · simp [not_hasGap_zero]
  · simp [not_hasGap_zero]
  · simpa [not_hasGap_zero] using hasGap_add m p 1 1
  · rw [show 3 = 1 + (1 + 1) from rfl, hasGap_add, hasGap_add]
    simp

/-- `H_SHORT` reads the whole message, byte by byte (42_digest_engine R180). -/
theorem execHShort_answers {s : State} (hl : s.len ≤ 3)
    (hf : s.cur.toNat + s.len ≤ s.inst.memSize) :
    LoadAnswers s (hasGap s.mem s.cur.toNat s.len) .hFin1
      (s.readLog ++ messageReads s.cur.toNat s.len) (execHShort s) := by
  rw [messageReads_short _ hl, hasGap_short hl, ← List.append_assoc, ← List.append_assoc]
  refine loadAnswers_readByteIf s.cur.toNat rfl (fun h => ?_) fun b0 =>
    loadAnswers_readByteIf (s.cur.toNat + 1) rfl (fun h => ?_) fun b1 =>
    loadAnswers_readByteIf (s.cur.toNat + 2) rfl (fun h => ?_) fun b2 =>
    loadAnswers_done s .hFin1 _ _ _
  all_goals
    have := of_decide_eq_true h
    omega

/-- The four windows of `H_MID` cover a message of 4 to 16 bytes (42_digest_engine R182). -/
theorem hasGap_mid {m : List Host.Cell} {p len : Nat} (h4 : 4 ≤ len) (h16 : len ≤ 16) :
    hasGap m p len ↔ hasGap m p 4 ∨ hasGap m (p + len - 4) 4 ∨ hasGap m (p + midOffset len) 4 ∨
      hasGap m (p + len - 4 - midOffset len) 4 ∨ False := by
  unfold midOffset
  constructor
  · rintro ⟨a, h1, h2, ha⟩
    have hcover : a < p + 4 ∨ p + len - 4 ≤ a ∨ (p + len / 8 * 4 ≤ a ∧ a < p + len / 8 * 4 + 4) ∨
        (p + len - 4 - len / 8 * 4 ≤ a ∧ a < p + len - 4 - len / 8 * 4 + 4) := by omega
    rcases hcover with h | h | ⟨h, h'⟩ | ⟨h, h'⟩
    · exact .inl ⟨a, h1, h, ha⟩
    · exact .inr (.inl ⟨a, h, by omega, ha⟩)
    · exact .inr (.inr (.inl ⟨a, h, h', ha⟩))
    · exact .inr (.inr (.inr (.inl ⟨a, h, h', ha⟩)))
  · rintro (h | h | h | h | h)
    · exact h.mono le_rfl (by omega)
    · exact h.mono (by omega) (by omega)
    · exact h.mono (by omega) (by omega)
    · exact h.mono (by omega) (by omega)
    · exact h.elim

theorem messageReads_mid {len : Nat} (p : Nat) (h4 : 4 ≤ len) (h16 : len ≤ 16) :
    messageReads p len = [⟨p, 4⟩] ++ [⟨p + len - 4, 4⟩] ++ [⟨p + midOffset len, 4⟩] ++
      [⟨p + len - 4 - midOffset len, 4⟩] := by
  simp [messageReads, show len ≠ 0 by omega, show len ≠ 1 by omega, show len ≠ 2 by omega,
    show len ≠ 3 by omega, h16]

/-- `H_MID` reads the whole message, by its four windows (42_digest_engine R182). -/
theorem execHMid_answers {s : State} (h4 : 4 ≤ s.len) (h16 : s.len ≤ 16)
    (hf : s.cur.toNat + s.len ≤ s.inst.memSize) :
    LoadAnswers s (hasGap s.mem s.cur.toNat s.len) .hFin1
      (s.readLog ++ messageReads s.cur.toNat s.len) (execHMid s) := by
  have hcur : s.curNat = s.cur.toNat := rfl
  have ho : midOffset s.len ≤ s.len - 4 := by unfold midOffset; omega
  rw [messageReads_mid _ h4 h16, hasGap_mid h4 h16]
  simp only [← List.append_assoc, execHMid]
  refine loadAnswers_readLane s.cur.toNat 4 rfl ?_ fun w0 =>
    loadAnswers_readLane (s.cur.toNat + s.len - 4) 4 ?_ ?_ fun w1 =>
    loadAnswers_readLane (s.cur.toNat + midOffset s.len) 4 ?_ ?_ fun w2 =>
    loadAnswers_readLane (s.cur.toNat + s.len - 4 - midOffset s.len) 4 ?_ ?_ fun w3 =>
    loadAnswers_done s .hFin1 _ _ _
  all_goals omega

end Sys2Proof.Machine
end

section
/-! Message memory: the value of a lane, the loads that have no answer, and who changes a byte. -/

namespace Sys2Proof.Machine

/-! ### The value of a lane -/

/-- Settles O42: a lane of at most eight bytes is not cut, so its value is the sum by places. -/
theorem laneIsAssembledByByteOrder : Obligations.LaneIsAssembledByByteOrder := by
  intro b0 b1 b2 b3 b4 b5 b6 b7
  refine ⟨?_, ?_, ?_, ?_⟩ <;> rw [laneValue_toNat (by simp)] <;>
    simp only [laneNat, littleNat, List.reverse_cons, List.reverse_nil, List.nil_append,
      List.cons_append] <;> omega

/-- Settles O51: the short path assembles single bytes, to which no byte order applies. -/
theorem shortDigestsIgnoreTheByteOrder : Obligations.ShortDigestsIgnoreTheByteOrder := by
  intro msg seed h
  rw [hash64_short .little msg seed h, hash64_short .big msg seed h]

/-! ### Loads without an answer -/

/-- Settles O43, by the answer of each load phase. -/
theorem unbackedByteStopsTheLoad : Obligations.UnbackedByteStopsTheLoad := by
  intro s a ha
  refine ⟨fun hl hf h1 h2 => ?_, fun h4 h16 hf h1 h2 => ?_, fun hf h1 h2 => ?_,
    fun h16 hf h1 h2 => ?_⟩
  · exact (execHShort_answers hl hf).unanswered_iff.mpr ⟨a, h1, h2, ha⟩
  · exact (execHMid_answers h4 h16 hf).unanswered_iff.mpr ⟨a, h1, h2, ha⟩
  · exact (execHBulkLd_answers hf).unanswered_iff.mpr ⟨a, h1, h2, ha⟩
  · obtain ⟨p, hp⟩ := Nat.exists_eq_add_of_le' h16
    exact (execHTail_answers hp (by omega)).unanswered_iff.mpr ⟨a, by omega, by omega, ha⟩

/-! ### Who changes a byte -/

/-- The last column of the write matrix. -/
theorem exec_mem {i : Instr} {s t : State} (h : exec i s = .next t) : t.mem = s.mem := by
  obtain ⟨-, -, -, -, -, -, -, -, -, -, -, -, -, -, -, -, -, -, -, -, -, -, hmem⟩ :=
    writeMatrix i s t h
  exact hmem

/-- Settles O44, by the column of memory in the write matrix. -/
theorem noInstructionWritesMemory : Obligations.NoInstructionWritesMemory := by
  intro i s t h a
  rw [exec_mem h]

theorem inMessage_of_hashLatched {s : State} {a : Nat} (hb : s.busy = true) (hl : s.hashLatched)
    (h1 : s.arg0.toNat ≤ a) (h2 : a < s.arg0.toNat + s.arg1.toNat) : s.inMessage a = true := by
  unfold State.hashLatched at hl
  simp [State.inMessage, hb, hl, h1, h2]

/-- Settles O46, by the kinds of step: reset and the core leave memory, a host line leaves the message,
and a busy block takes no write. -/
theorem messageStandsStillWhileHashed : Obligations.MessageStandsStillWhileHashed := by
  intro s t a hb hl h1 h2 h
  rcases step_fields h with ⟨-, u, rfl, -, hmem, -⟩ |
    ⟨-, ⟨-, i, -, he⟩ | ⟨_, _, _, _, _, rfl, hmem⟩ | ⟨hp, -⟩⟩
  · rw [resetBlock_mem, hmem]
  · exact noInstructionWritesMemory i _ t he a
  · exact hmem a (inMessage_of_hashLatched hb hl h1 h2)
  · exact absurd hp (ne_idle_of_busy hb)

end Sys2Proof.Machine
end

section
/-! The reads of a passing `HASH`: its run up to the path, the passes of the bulk loop, and the loads that
finish (20_memory R71, 42_digest_engine R174, R175). -/

namespace Sys2Proof.Machine

/-! ### Up to the path -/

/-- `H_CHECK` goes on where its checks pass (42_digest_engine R172). -/
theorem execHCheck_of_checksPass {s : State} (h : s.checksPass) :
    execHCheck s = .next { s with phase := .hInit } := by
  unfold execHCheck State.runsPastTop
  rcases h with h0 | ⟨hbp, hfit⟩
  · simp [h0]
  · simp [hbp, Nat.not_lt.mpr hfit]

/-- A passing `HASH` where it enters its path: the seeded pair, the round constants of R150, and the
cursor at the message (41_mix_unit R142, R143). -/
def pathStart (s : State) : State :=
  { s with
    s1 := (seedProduct s.arg1 s.seed).1, s2 := (seedProduct s.arg1 s.seed).2, ma := val01,
    mb := val10 ^^^ (seedProduct s.arg1 s.seed).2, cur := truncAddr s.inst s.arg0, rem := s.arg1,
    phase := pathOf s.arg1 }

theorem run_pathStart {s : State} (hp : s.phase = .hCheck) (ht : s.turns = []) (hc : s.checksPass) :
    run 4 s = .next (pathStart s) :=
  calc run 4 s
    _ = run 3 { s with phase := .hInit } :=
      run_of_microOp (i := .hCheck) 3 ht (by rw [hp]; rfl) (execHCheck_of_checksPass hc)
    _ = run 2 _ := run_of_microOp 2 ht rfl rfl
    _ = run 1 _ := run_of_microOp 1 ht rfl rfl
    _ = run 0 (pathStart s) := run_of_microOp 0 ht rfl rfl

/-- The message that the path reads: none of it, or the cursor stands at `PTR` and it ends inside message
memory. -/
theorem pathStart_window {s : State} (hc : s.checksPass) :
    s.len = 0 ∨ (1 ≤ s.len ∧ (pathStart s).cur = s.arg0 ∧
      s.arg0.toNat + s.len ≤ s.inst.memSize) := by
  rcases Nat.eq_zero_or_pos s.len with h0 | hl
  · exact .inl h0
  · have hfit : s.arg0.toNat + s.len ≤ s.inst.memSize := hc.message_fits hl
    exact .inr ⟨hl, truncAddr_of_lt (by omega), hfit⟩

/-! ### The loads that finish -/

/-- From a load whose bytes are all backed the command ends in three steps, and its reads are the last. -/
theorem readLog_of_finalLoad {s t : State} {i : Instr} {gap : Prop} {log : List ReadReq}
    (ht : s.turns = []) (hi : s.phase.microOp = some i)
    (ha : LoadAnswers s gap .hFin1 log (exec i s)) (hg : ¬ gap) (h : run 3 s = .next t) :
    t.readLog = log := by
  obtain ⟨a, b, he⟩ := ha.next hg
  have hrun : run 3 s = run 0 _ :=
    calc run 3 s
      _ = run 2 { s with la := a, lb := b, phase := .hFin1, readLog := log } :=
        run_of_microOp 2 ht hi he
      _ = run 1 _ := run_of_microOp 1 ht rfl rfl
      _ = run 0 _ := run_of_microOp 0 ht rfl rfl
  cases hrun.symm.trans h
  rfl

/-! ### The bulk loop -/

/-- One pass of the bulk loop: two reads, and the cursor one block further (42_digest_engine R184,
R186). -/
theorem run_bulkPass {s : State} (ht : s.turns = []) (hp : s.phase = .hBulkLd)
    (hf : s.cur.toNat + 16 ≤ s.inst.memSize) (hg : ¬ hasGap s.mem s.cur.toNat 16) :
    ∃ x1 x2 a b, run 2 s = .next { s with
      s1 := x1, s2 := x2, la := a, lb := b, cur := truncAddr s.inst (s.cur + 16), rem := s.rem - 16,
      phase := if 16 < (s.rem - 16).toNat then .hBulkLd else .hTail,
      readLog := s.readLog ++ [⟨s.cur.toNat, 8⟩, ⟨s.cur.toNat + 8, 8⟩] } := by
  obtain ⟨a, b, he⟩ := (execHBulkLd_answers hf).next hg
  exact ⟨_, _, a, b, (run_of_microOp (i := .hBulkLd) 1 ht (by rw [hp]; rfl) he).trans
    (run_of_microOp 0 ht rfl rfl)⟩

/-- The whole loop from any of its passes on, and the tail: the reads of `bulkCount` of what remains, and
then the last sixteen bytes of the message (42_digest_engine R188, R190). -/
theorem readLog_of_bulkLoop {s t : State} {k : Nat} (h : run (2 * k + 3) s = .next t)
    (hleg : s.inst.legal = true) (ht : s.turns = []) (hc : s.checksPass) (h17 : 17 ≤ s.len)
    (hg : ¬ hasGap s.mem s.arg0.toNat s.len) (hloop : s.cursorInLoop)
    (hp : s.phase = if 16 < s.rem.toNat then .hBulkLd else .hTail)
    (hk : bulkCount s.rem.toNat = k) :
    t.readLog = s.readLog ++ (bulkReads s.cur.toNat k ++
      [⟨s.arg0.toNat + s.len - 16, 8⟩, ⟨s.arg0.toNat + s.len - 8, 8⟩]) := by
  unfold bulkCount at hk
  induction k generalizing s with
  | zero =>
    have hfit : s.arg0.toNat + s.len ≤ s.inst.memSize := hc.message_fits (by omega)
    obtain ⟨-, -, hend⟩ := hloop
    change s.cur.toNat + s.rem.toNat = s.arg0.toNat + s.len at hend
    rw [if_neg (by omega)] at hp
    have answers := execHTail_answers (s := s) (p := s.arg0.toNat + s.len - 16) (by omega) (by omega)
    rw [show s.arg0.toNat + s.len - 16 + 8 = s.arg0.toNat + s.len - 8 by omega] at answers
    exact readLog_of_finalLoad (i := .hTail) ht (by rw [hp]; rfl) answers
      (fun hgap => hg (hgap.mono (by omega) (by omega))) h
  | succ k ih =>
    have hfit : s.arg0.toNat + s.len ≤ s.inst.memSize := hc.message_fits (by omega)
    have ⟨hge, _, (hend : s.cur.toNat + s.rem.toNat = s.arg0.toNat + s.len)⟩ := hloop
    have h16 : 16 < s.rem.toNat := by omega
    rw [if_pos h16] at hp
    obtain ⟨x1, x2, a, b, hpass⟩ := run_bulkPass ht hp (by omega)
      fun hgap => hg (hgap.mono hge (by omega))
    obtain ⟨hloop', hcur, hrem⟩ := hloop.advance hc hleg h16 (by omega)
      (t := { s with cur := truncAddr s.inst (s.cur + 16), rem := s.rem - 16 }) rfl rfl rfl rfl
    rw [show 2 * (k + 1) + 3 = 2 + (2 * k + 3) by ring, run_add_of_next hpass] at h
    simp only at hcur hrem
    have hrest := ih h hleg ht hc h17 hg hloop' rfl (by simp only; omega)
    rw [hrest, bulkReads_succ, ← hcur]
    simp only [List.append_assoc]
    rfl

theorem messageReads_long {len : Nat} (p : Nat) (h : 17 ≤ len) :
    messageReads p len = bulkReads p (bulkCount len) ++ [⟨p + len - 16, 8⟩, ⟨p + len - 8, 8⟩] := by
  simp [messageReads, show len ≠ 0 by omega, show len ≠ 1 by omega, show len ≠ 2 by omega,
    show len ≠ 3 by omega, show ¬ len ≤ 16 by omega]

/-! ### By path -/

section
variable {s t : State} (ht : s.turns = []) (hc : s.checksPass)
  (hg : ¬ hasGap s.mem s.arg0.toNat s.len)
include ht hc hg

theorem readLog_of_shortPath (hl : s.len ≤ 3) (hp : pathOf s.arg1 = .hShort)
    (h : run 3 (pathStart s) = .next t) :
    t.readLog = s.readLog ++ messageReads s.arg0.toNat s.len := by
  have answers := execHShort_answers (s := pathStart s) hl
  have hi : (pathStart s).phase.microOp = some .hShort := by rw [pathStart, hp]; rfl
  rcases pathStart_window hc with h0 | ⟨-, hcur, hfit⟩
  · have h0' : (pathStart s).len = 0 := h0
    have hlt : (pathStart s).cur.toNat < (pathStart s).inst.memSize := truncAddr_lt _ _
    rw [h0'] at answers
    rw [h0]
    exact readLog_of_finalLoad (s := pathStart s) ht hi (answers (by omega)) (not_hasGap_zero _ _) h
  · rw [hcur] at answers
    exact readLog_of_finalLoad (s := pathStart s) ht hi (answers hfit) hg h

theorem readLog_of_midPath (h4 : 4 ≤ s.len) (h16 : s.len ≤ 16) (hp : pathOf s.arg1 = .hMid)
    (h : run 3 (pathStart s) = .next t) :
    t.readLog = s.readLog ++ messageReads s.arg0.toNat s.len := by
  have answers := execHMid_answers (s := pathStart s) h4 h16
  have hi : (pathStart s).phase.microOp = some .hMid := by rw [pathStart, hp]; rfl
  rcases pathStart_window hc with h0 | ⟨-, hcur, hfit⟩
  · omega
  · rw [hcur] at answers
    exact readLog_of_finalLoad (s := pathStart s) ht hi (answers hfit) hg h

theorem readLog_of_longPath (hleg : s.inst.legal = true) (h17 : 17 ≤ s.len)
    (hp : pathOf s.arg1 = .hLong) (h : run (1 + (2 * bulkCount s.len + 3)) (pathStart s) = .next t) :
    t.readLog = s.readLog ++ messageReads s.arg0.toNat s.len := by
  rcases pathStart_window hc with h0 | ⟨hl, hcur, -⟩
  · omega
  have hlong : run 1 (pathStart s) = run 0 _ :=
    run_of_microOp (i := .hLong) 0 ht (by rw [pathStart, hp]; rfl) rfl
  have hloop : (pathStart s).cursorInLoop := State.cursorAtStart.inLoop ⟨rfl, rfl⟩ hc hl
  have hrem : 16 < s.arg1.toNat := h17
  rw [run_add_of_next hlong] at h
  have hreads := readLog_of_bulkLoop h hleg ht hc h17 hg hloop (if_pos hrem).symm rfl
  simp only [hcur] at hreads
  rw [messageReads_long _ h17]
  exact hreads

end

/-- Settles O49: four steps lead every passing `HASH` to its path, and each path reads its list. -/
theorem passingHashReadsExactlyTheListedBytes :
    Obligations.PassingHashReadsExactlyTheListedBytes := by
  intro s t msg hleg hp ht hc hlen hm h
  have hg := not_hasGap_of_holdsMessage hm
  have hstart := run_pathStart hp ht hc
  rw [hlen] at hg h ⊢
  rcases pathOf_cases s.arg1 with ⟨hl, he⟩ | ⟨h4, h16, he⟩ | ⟨h17, he⟩
  · rw [hashSteps, if_pos (by omega), run_add_of_next (k := 3) hstart] at h
    exact readLog_of_shortPath ht hc hg hl he h
  · rw [hashSteps, if_pos h16, run_add_of_next (k := 3) hstart] at h
    exact readLog_of_midPath ht hc hg h4 h16 he h
  · rw [hashSteps, if_neg (by omega), show ∀ n, 8 + 2 * n = 4 + (1 + (2 * n + 3)) by omega,
      run_add_of_next hstart] at h
    exact readLog_of_longPath ht hc hg hleg h17 he h

end Sys2Proof.Machine
end

section
/-! The host beside the core: its turn, its lines while a command runs, and a command whose read has no
answer (20_memory R69, R73, 44_host_port R241, R244). -/

namespace Sys2Proof.Machine

/-! ### Turns -/

theorem step_host_turn {s : State} {gs : List Agent} (ht : s.turns = .host :: gs) :
    step s = if hostReady { s with turns := gs } then hostStep { s with turns := gs }
      else .next { s with turns := gs } := by
  simp only [step, ht, agentStep]

/-- Whose turn it is makes no difference to whether a read is answered. -/
theorem exec_turns_unanswered {s : State} {i : Instr} (hi : s.phase.microOp = some i) (gs : List Agent) :
    exec i { s with turns := gs } = .fault .memoryUnanswered ↔ exec i s = .fault .memoryUnanswered :=
  exec_withOutside_unanswered (microOp_phase hi).1 s.waiting s.script s.results gs s

/-- The core's turn passes where its read has no answer (20_memory R73, log 21). -/
theorem step_core_turn_unanswered {s : State} {i : Instr} {gs : List Agent}
    (ht : s.turns = .core :: gs) (hi : s.phase.microOp = some i)
    (he : exec i s = .fault .memoryUnanswered) : step s = .next { s with turns := gs } := by
  have hc : coreReady { s with turns := gs } = false :=
    coreReady_of_unanswered (s := { s with turns := gs }) hi ((exec_turns_unanswered hi gs).mpr he)
  simp only [step, ht, agentStep, hc, Bool.false_eq_true, if_false]

/-- With no turn set and no answer, the host moves if it can, and else the machine is stuck. -/
theorem step_free_unanswered {s : State} {i : Instr} (ht : s.turns = [])
    (hi : s.phase.microOp = some i) (he : exec i s = .fault .memoryUnanswered) :
    step s = if hostReady s then hostStep s else .fault .memoryUnanswered := by
  have hb : s.busy = true := (microOp_isSome_iff_busy s).mp (by simp [hi])
  rw [step_host_free ht (coreReady_of_unanswered hi he), stopReason, if_pos hb]

/-! ### Lines of the script -/

section
variable {s : State} {ops : List HostOp} (hw : s.waiting = [])
include hw

theorem hostReady_request {r : PortRequest} (hs : s.script = .request r :: ops) :
    hostReady s = true := by
  simp only [hostReady, hw, hs]

theorem hostStep_request {r : PortRequest} {i : Instr} (hs : s.script = .request r :: ops)
    (hd : decode (.port r) = .ok i) : hostStep s = exec i { s with script := ops } := by
  simp only [hostStep, hw, hs, scriptStep]
  exact issue_of_decode _ hd

theorem hostReady_place {a : Nat} {b : Byte} (hs : s.script = .place a b :: ops) :
    hostReady s = !s.inMessage a := by
  simp only [hostReady, hw, hs]

theorem hostStep_place {a : Nat} {b : Byte} (hs : s.script = .place a b :: ops)
    (ha : a < s.inst.memSize) :
    hostStep s = .next { s with script := ops, mem := memWrite s.mem a b } := by
  simp only [hostStep, hw, hs, scriptStep, if_pos ha]

end

/-- Settles O47: the line is taken unless the byte is in the message, and then a read after the write. -/
theorem placedByteIsTheByteRead : Obligations.PlacedByteIsTheByteRead := by
  intro s a b ops gs hw ht hs ha
  have hready : hostReady { s with turns := gs } = !s.inMessage a :=
    hostReady_place (s := { s with turns := gs }) hw hs
  refine ⟨fun hout => ?_, fun hin => ?_⟩
  · refine ⟨{ s with script := ops, turns := gs, mem := memWrite s.mem a b }, ?_, rfl,
      memRead_memWrite s.mem a b⟩
    rw [step_host_turn ht, hready, hout, Bool.not_false, if_pos rfl]
    exact hostStep_place (s := { s with turns := gs }) hw hs ha
  · rw [step_host_turn ht, hready, hin]
    rfl

/-! ### What is placed is run -/

/-- What the host's turn does with a request that stands alone at the port. -/
theorem step_placedRequest {s : State} {r : PortRequest} {i : Instr} (p : Phase)
    (hd : decode (.port r) = .ok i) :
    step { s with phase := p, waiting := [], script := .request r :: s.script,
                  turns := .host :: s.turns } = exec i { s with phase := p, waiting := [] } := by
  rw [step_host_turn rfl, if_pos (hostReady_request rfl rfl)]
  exact hostStep_request rfl rfl hd

/-- The instructions that read message memory (20_memory R61). -/
def readsMemory : Instr → Bool
  | .hShort | .hMid | .hBulkLd | .hTail => true
  | _ => false

theorem exec_ne_unanswered {i : Instr} (h : readsMemory i = false) (s : State) :
    exec i s ≠ .fault .memoryUnanswered := by
  cases i
  case hShort | hMid | hBulkLd | hTail => cases h
  case hCheck => simp only [exec, execHCheck]; split_ifs <;> nofun
  all_goals nofun

/-- A command row is the write of its word to `CMD` (30_encoding R102). -/
theorem exec_command (c : Command) (s : State) : exec c.toInstr s = exec (.wr 0 c.word) s := by
  cases c <;> rfl

theorem command_of_decode {w : Word} {i : Instr} (h : decode (.command w) = .ok i) :
    ∃ c : Command, i = c.toInstr ∧ w = c.word := by
  simp only [decode] at h
  cases hc : decodeCommand w with
  | none => rw [hc] at h; cases h
  | some c => rw [hc] at h; cases h; exact ⟨c, rfl, decodeCommand_eq_some.mp hc⟩

theorem microOp_of_decodePhase {c : BitVec 4} {i : Instr} (h : decode (.phase c) = .ok i) :
    (Phase.ofCode c).microOp = some i := by
  simp only [decode, decodePhase] at h
  cases hm : (Phase.ofCode c).microOp with
  | none => rw [hm] at h; cases h
  | some j => rw [hm] at h; cases h; rfl

theorem withEncoded_phase_free {s : State} (h : s.turns = []) (c : BitVec 4) :
    s.withEncoded (.phase c) = { s with phase := Phase.ofCode c } := by
  simp [State.withEncoded, h]

theorem withEncoded_phase_turn {s : State} (h : s.turns ≠ []) (c : BitVec 4) :
    s.withEncoded (.phase c) = { s with phase := Phase.ofCode c, turns := .core :: s.turns } := by
  simp [State.withEncoded, h]

/-- Settles O7, space by space: a command word and a request are the host's next line, a phase code is
the core's next micro-operation. -/
theorem fetchedThingIsRunByTheNextStep : Obligations.FetchedThingIsRunByTheNextStep := by
  intro s u e i hd hu
  cases e with
  | command w =>
    obtain ⟨c, rfl, rfl⟩ := command_of_decode hd
    have hrun : step (s.withEncoded (.command c.word)) = exec c.toInstr u := by
      rw [hu, exec_command]
      exact step_placedRequest .idle (decode_writeRequest 0 c.word)
    refine ⟨fun _ => hrun, fun he => ?_⟩
    rw [exec_command] at he
    exact absurd he (exec_ne_unanswered rfl u)
  | port r =>
    have hrun : step (s.withEncoded (.port r)) = exec i u := by
      rw [hu]
      exact step_placedRequest _ hd
    have hm : readsMemory i = false := by
      rcases decode_port_cases hd with ⟨n, rfl⟩ | ⟨n, v, rfl⟩ <;> rfl
    exact ⟨fun _ => hrun, fun he => absurd he (exec_ne_unanswered hm u)⟩
  | phase c =>
    obtain rfl : u = { s with phase := Phase.ofCode c } := hu
    have hi := microOp_of_decodePhase hd
    by_cases ht : s.turns = []
    · rw [withEncoded_phase_free ht]
      exact ⟨step_core_free ht hi, fun he =>
        ⟨fun hne => absurd ht hne, fun _ => step_free_unanswered ht hi he⟩⟩
    · rw [withEncoded_phase_turn ht]
      exact ⟨fun ha => step_core_turn rfl hi ha, fun he =>
        ⟨fun _ => step_core_turn_unanswered rfl hi ((exec_turns_unanswered hi _).mpr he),
          fun h => absurd h ht⟩⟩

/-! ### Beside a command whose read has no answer -/

theorem status_getLsbD_zero (s : State) : s.status.getLsbD 0 = s.busy := by
  unfold State.status
  rw [BitVec.getLsbD_append]
  simp

/-- Settles O57, one kind of step after the other. -/
theorem unansweredReadTakesOnlyTheCoresStep : Obligations.UnansweredReadTakesOnlyTheCoresStep := by
  intro s i hd he
  have hi := microOp_of_decode hd
  have hb : s.busy = true := (microOp_isSome_iff_busy s).mp (by simp [hi])
  refine ⟨fun gs ht => step_core_turn_unanswered ht hi he, fun n ops hw hs => ⟨fun ht => ?_,
    fun gs ht => ?_⟩, ⟨s.status, rfl, ?_⟩, fun ops hw hs ht => ?_, fun ht hr => ?_⟩
  · rw [step_free_unanswered ht hi he, if_pos (hostReady_request hw hs)]
    exact hostStep_request hw hs (decode_readRequest n)
  · rw [step_host_turn ht, if_pos (hostReady_request (s := { s with turns := gs }) hw hs)]
    exact hostStep_request (s := { s with turns := gs }) hw hs (decode_readRequest n)
  · rw [status_getLsbD_zero, hb]
  · obtain ⟨ops', hs', hr, hstep⟩ := hostStep_reset (s := s) (by simp [hw, hs])
    rw [step_free_unanswered ht hi he, if_pos hr, hstep]
    cases hs.symm.trans hs'
    exact ⟨_, rfl, rfl, rfl, rfl⟩
  · rw [step_free_unanswered ht hi he, hr]
    rfl

/-- While a command runs, a host step that is no reset leaves the block, and the message it hashes, as
they are (44_host_port R241, R244, log 6). -/
theorem hostStep_while_busy {s t : State} (hb : s.busy = true) (hr : hostReady s = true)
    (hn : (s.waiting.isEmpty && s.script.head? == some .reset) = false) (h : hostStep s = .next t) :
    t = { s with waiting := t.waiting, script := t.script, results := t.results, mem := t.mem } ∧
    ∀ a, s.inMessage a = true → memRead t.mem a = memRead s.mem a := by
  have hp := ne_idle_of_busy hb
  rcases hostStep_next hr h with ⟨w, ws, -, hidle, -⟩ | ⟨n, r, ops, -, -, -, rfl⟩ |
    ⟨n, v, r, ops, -, -, -, rfl⟩ | ⟨ops, -, -, rfl | rfl⟩ | ⟨ops, hw, hs, -⟩ |
    ⟨a, b, ops, -, -, hout, -, rfl⟩
  · exact absurd hidle hp
  · exact ⟨rfl, fun _ _ => rfl⟩
  · rw [portWrite_notIdle (s := { s with script := ops }) hp]
    exact ⟨rfl, fun _ _ => rfl⟩
  · exact ⟨rfl, fun _ _ => rfl⟩
  · exact ⟨rfl, fun _ _ => rfl⟩
  · simp [hw, hs] at hn
  · refine ⟨rfl, fun x hx => ?_⟩
    have hne : x ≠ a := by
      rintro rfl
      simp [hx] at hout
    rw [memRead_memWrite, if_neg hne]

/-- Settles O59: the turn passes, or it is a host step while the command runs. -/
theorem hostTurnLeavesARunningCommandAlone : Obligations.HostTurnLeavesARunningCommandAlone := by
  intro s t gs hb ht hn h
  rw [step_host_turn ht] at h
  split at h
  case isTrue hr =>
    rw [resetNext_eq, ht] at hn
    obtain ⟨hblock, hmem⟩ := hostStep_while_busy (s := { s with turns := gs }) hb hr hn h
    exact ⟨hblock, fun a hl h1 h2 => hmem a (inMessage_of_hashLatched hb hl h1 h2)⟩
  case isFalse => cases h; exact ⟨rfl, fun _ _ _ _ => rfl⟩

/-! ### Stuck until a reset -/

/-- Where the cursor stands at the start, the bytes ahead of it are the message. -/
theorem State.cursorAtStart.inMessage {s : State} (h : s.cursorAtStart) (hb : s.busy = true)
    (hl : s.hashLatched) (hc : s.checksPass) (hfits : s.cur.toNat < s.inst.memSize) :
    s.cur.toNat + s.len ≤ s.inst.memSize ∧
      ∀ a, s.cur.toNat ≤ a → a < s.cur.toNat + s.len → s.inMessage a = true := by
  rcases Nat.eq_zero_or_pos s.len with h0 | hpos
  · exact ⟨by omega, fun a h1 h2 => by omega⟩
  · have hfit : s.arg0.toNat + s.len ≤ s.inst.memSize := hc.message_fits hpos
    obtain ⟨hcur, -⟩ := h
    rw [truncAddr_of_lt (by omega)] at hcur
    rw [hcur]
    exact ⟨hfit, fun a h1 h2 => inMessage_of_hashLatched hb hl h1 h2⟩

/-- The reads of `i` are the `n` bytes from `p` on, all of them in the message that is hashed: whatever
memory holds, `i` has no answer exactly where one of them is not backed. -/
def ReadsInMessage (s : State) (i : Instr) (p n : Nat) : Prop :=
  (∀ a, p ≤ a → a < p + n → s.inMessage a = true) ∧
    ∀ m, exec i { s with mem := m } = .fault .memoryUnanswered ↔ hasGap m p n

theorem readsInMessage_of_noReads {i : Instr} (h : readsMemory i = false) (s : State) :
    ReadsInMessage s i 0 0 :=
  ⟨fun a _ h => by omega, fun m => iff_of_false (exec_ne_unanswered h _) (not_hasGap_zero m 0)⟩

/-- Every phase of a block under the invariant reads inside the message (42_digest_engine R192). -/
theorem exists_readsInMessage {s : State} {i : Instr} (hs : s.Inv) (hi : s.phase.microOp = some i) :
    ∃ p n, ReadsInMessage s i p n := by
  have hb : s.busy = true := (microOp_isSome_iff_busy s).mp (by simp [hi])
  have hf := hs.phaseFacts
  cases hp : s.phase <;> rw [hp] at hf hi <;> cases hi
  case hShort =>
    obtain ⟨⟨hlatch, hc⟩, hst, hl⟩ := hf
    obtain ⟨hfit, hin⟩ := hst.inMessage hb hlatch hc hs.cursorFits
    exact ⟨_, _, hin,
      fun m => (execHShort_answers (s := { s with mem := m }) hl hfit).unanswered_iff⟩
  case hMid =>
    obtain ⟨⟨hlatch, hc⟩, hst, h4, h16⟩ := hf
    obtain ⟨hfit, hin⟩ := hst.inMessage hb hlatch hc hs.cursorFits
    exact ⟨_, _, hin,
      fun m => (execHMid_answers (s := { s with mem := m }) h4 h16 hfit).unanswered_iff⟩
  case hBulkLd =>
    obtain ⟨⟨hlatch, hc⟩, ⟨hge, -, hend⟩, hl, hrem⟩ := hf
    have hfit := hc.message_fits (by omega)
    exact ⟨s.cur.toNat, 16,
      fun a h1 h2 => inMessage_of_hashLatched hb hlatch (by omega) (by omega),
      fun m => (execHBulkLd_answers (s := { s with mem := m }) (by simp only; omega)).unanswered_iff⟩
  case hTail =>
    obtain ⟨⟨hlatch, hc⟩, ⟨-, -, hend⟩, hl, -, -, hge⟩ := hf
    have hfit := hc.message_fits (by omega)
    exact ⟨s.cur.toNat + s.rem.toNat - 16, 16,
      fun a h1 h2 => inMessage_of_hashLatched hb hlatch (by omega) (by omega),
      fun m => (execHTail_answers (s := { s with mem := m }) (by simp only; omega)
        (by simp only; omega)).unanswered_iff⟩
  all_goals exact ⟨0, 0, readsInMessage_of_noReads rfl s⟩

/-- Settles O58: a step of the kind that is left changes nothing of the block and no byte of the message,
and on these alone it depends whether the phase has an answer. -/
theorem stuckCommandStaysStuckUntilReset : Obligations.StuckCommandStaysStuckUntilReset := by
  intro s t i hs hd he hn h
  have hi := microOp_of_decode hd
  have hb : s.busy = true := (microOp_isSome_iff_busy s).mp (by simp [hi])
  rcases step_fields h with ⟨hr, -⟩ |
    ⟨-, ⟨-, j, hj, hnext⟩ | ⟨ws, sc, rs, m, gs, rfl, hmem⟩ | ⟨hp, -⟩⟩
  · rw [hn] at hr; cases hr
  · cases hi.symm.trans hj
    cases ((exec_turns_unanswered hi s.turns.tail).mpr he).symm.trans hnext
  · obtain ⟨p, n, hin, hiff⟩ := exists_readsInMessage hs hi
    have hgap : hasGap s.mem p n := (hiff s.mem).mp he
    exact ⟨rfl, (exec_withOutside_unanswered (microOp_phase hi).1 ws sc rs gs
      { s with mem := m }).mpr
        ((hiff m).mpr (hgap.congr fun a h1 h2 => hmem a (hin a h1 h2)))⟩
  · exact absurd hp (ne_idle_of_busy hb)

end Sys2Proof.Machine
end

section
/-! The encodings (30_encoding R90 to R100): what each instruction is the encoding of, and which words,
requests and codes decode. -/

namespace Sys2Proof.Machine

/-! ### The three spaces -/

/-- Every micro-operation is that of a phase (30_encoding R100). -/
theorem exists_phase_of_isMicroOp {i : Instr} (h : isMicroOp i = true) :
    ∃ p : Phase, p.microOp = some i := by
  cases i
  case mul | hash | pnext | rd | wr => cases h
  case mulX => exact ⟨.mulX, rfl⟩
  case prngX => exact ⟨.prngX, rfl⟩
  case hCheck => exact ⟨.hCheck, rfl⟩
  case hInit => exact ⟨.hInit, rfl⟩
  case hSeed => exact ⟨.hSeed, rfl⟩
  case hSelect => exact ⟨.hSelect, rfl⟩
  case hShort => exact ⟨.hShort, rfl⟩
  case hMid => exact ⟨.hMid, rfl⟩
  case hLong => exact ⟨.hLong, rfl⟩
  case hBulkLd => exact ⟨.hBulkLd, rfl⟩
  case hBulkMx => exact ⟨.hBulkMx, rfl⟩
  case hTail => exact ⟨.hTail, rfl⟩
  case hFin1 => exact ⟨.hFin1, rfl⟩
  case hFin2 => exact ⟨.hFin2, rfl⟩

/-- Every instruction belongs to one of the three encoded spaces: a command word, a port transaction, or
the micro-operation of a phase (30_encoding R90). -/
theorem instr_cases (i : Instr) :
    (∃ c : Command, i = c.toInstr) ∨ (∃ n, i = .rd n) ∨ (∃ n v, i = .wr n v) ∨
      ∃ p : Phase, p.microOp = some i := by
  cases i
  case mul => exact .inl ⟨.mul, rfl⟩
  case hash bp sv => exact .inl ⟨.hash bp sv, rfl⟩
  case pnext => exact .inl ⟨.pnext, rfl⟩
  case rd n => exact .inr (.inl ⟨n, rfl⟩)
  case wr n v => exact .inr (.inr (.inl ⟨n, v, rfl⟩))
  all_goals exact .inr (.inr (.inr (exists_phase_of_isMicroOp rfl)))

theorem encode_command (c : Command) : encode c.toInstr = .command c.word := by cases c <;> rfl

theorem encode_microOp {p : Phase} {i : Instr} (h : p.microOp = some i) :
    encode i = .phase p.code := by
  cases p <;> cases h <;> rfl

theorem decode_command_word (c : Command) : decode (.command c.word) = .ok c.toInstr := by
  simp [decode, decodeCommand_word]

theorem decode_microOp {p : Phase} {i : Instr} (h : p.microOp = some i) :
    decode (.phase p.code) = .ok i := by
  rw [decode_phase_code, h]

/-- Settles O1, space by space. -/
theorem decodeOfEncodeIsTheInstruction : Obligations.DecodeOfEncodeIsTheInstruction := by
  intro i
  rcases instr_cases i with ⟨c, rfl⟩ | ⟨n, rfl⟩ | ⟨n, v, rfl⟩ | ⟨p, hp⟩
  · rw [encode_command, decode_command_word]
  · exact decode_readRequest n
  · exact decode_writeRequest n v
  · rw [encode_microOp hp, decode_microOp hp]

/-! ### No bit is ignored -/

/-- A header is its bit `WE` before its field `REG` (30_encoding R91). -/
theorem header_eq_append (h : BitVec 5) :
    BitVec.ofBool (h.getLsbD 4) ++ h.extractLsb' 0 4 = h := by
  revert h; decide

theorem port_of_decode {r : PortRequest} {i : Instr} (h : decode (.port r) = .ok i) :
    (∃ n, i = .rd n ∧ r = readRequest n) ∨ ∃ n v, i = .wr n v ∧ r = writeRequest n v := by
  obtain ⟨header, wdata⟩ := r
  have hh := header_eq_append header
  simp only [decode, decodePort] at h
  split at h <;> cases h
  case h_1 _ hwe =>
    rw [hwe] at hh
    exact .inl ⟨_, rfl, congrArg₂ PortRequest.mk hh.symm rfl⟩
  case h_2 _ v hwe =>
    rw [hwe] at hh
    exact .inr ⟨_, v, rfl, congrArg₂ PortRequest.mk hh.symm rfl⟩

/-- All sixteen phase codes are used (30_encoding R100). -/
theorem code_ofCode (c : BitVec 4) : (Phase.ofCode c).code = c := by
  revert c; decide

/-- Settles O2, space by space: a word, a request and a code are each fixed by what they decode to. -/
theorem encodeOfDecodeIsTheEncodedThing : Obligations.EncodeOfDecodeIsTheEncodedThing := by
  intro e i h
  cases e with
  | command w =>
    obtain ⟨c, rfl, rfl⟩ := command_of_decode h
    exact encode_command c
  | port r =>
    rcases port_of_decode h with ⟨n, rfl, rfl⟩ | ⟨n, v, rfl, rfl⟩ <;> rfl
  | phase c => rw [encode_microOp (microOp_of_decodePhase h), code_ofCode]

/-! ### The legal command words -/

/-- The match and mask of the `HASH` row: `OP` is 2, the reserved bits are clear, and the two flags may
be anything (30_encoding R93, R94). -/
theorem hashFields_of_mask {w : Word} (h : w &&& 0xFFFFFFFFFFFFFFE7 = 0x2) :
    reservedField w = 0 ∧ opField w = 2 := by
  have hr : reservedField (w &&& 0xFFFFFFFFFFFFFFE7) = reservedField w :=
    BitVec.extractLsb'_and.trans BitVec.and_allOnes
  have ho : opField (w &&& 0xFFFFFFFFFFFFFFE7) = opField w :=
    BitVec.extractLsb'_and.trans BitVec.and_allOnes
  rw [h] at hr ho
  exact ⟨hr.symm, ho.symm⟩

theorem decodeCommand_of_hashFields {w : Word} (hr : reservedField w = 0) (ho : opField w = 2) :
    decodeCommand w = some (.hash (w.getLsbD 3) (w.getLsbD 4)) := by
  simp [decodeCommand, hr, ho]

theorem decodeCommand_eq_hash_iff (w : Word) :
    (∃ bp sv, decodeCommand w = some (.hash bp sv)) ↔ w &&& 0xFFFFFFFFFFFFFFE7 = 0x2 := by
  constructor
  · rintro ⟨bp, sv, h⟩
    rw [decodeCommand_eq_some.mp h]
    cases bp <;> cases sv <;> rfl
  · intro h
    obtain ⟨hr, ho⟩ := hashFields_of_mask h
    exact ⟨_, _, decodeCommand_of_hashFields hr ho⟩

/-- A row without free bits: its mask keeps the whole word, so its match is its one word. -/
theorem decodeCommand_eq_iff_mask (w : Word) (c : Command) :
    decodeCommand w = some c ↔ w &&& 0xFFFFFFFFFFFFFFFF = c.word := by
  rw [decodeCommand_eq_some, show (0xFFFFFFFFFFFFFFFF : Word) = BitVec.allOnes 64 from rfl,
    BitVec.and_allOnes]

/-- Settles O3: the words that decode are the words of the commands. -/
theorem legalCommandWordsAreExactlySix : Obligations.LegalCommandWordsAreExactlySix := by
  refine ⟨decodeCommand_word .mul, decodeCommand_word (.hash false false),
    decodeCommand_word (.hash true false), decodeCommand_word (.hash false true),
    decodeCommand_word (.hash true true), decodeCommand_word .pnext, ?_,
    fun w => decodeCommand_eq_iff_mask w .mul, fun w => decodeCommand_eq_iff_mask w .pnext,
    decodeCommand_eq_hash_iff⟩
  intro w h1 h2 hA h12 h1A h3
  rw [Option.eq_none_iff_forall_ne_some]
  intro c hc
  have hw := decodeCommand_eq_some.mp hc
  cases c with
  | mul => exact h1 hw
  | pnext => exact h3 hw
  | hash bp sv =>
    cases bp <;> cases sv
    · exact h2 hw
    · exact h12 hw
    · exact hA hw
    · exact h1A hw

/-- Settles O4: a legal word is the word of its command, a request the request of its transaction, and a
code the code of its phase; the word 0x9 and the code of `FAULT` are none. -/
theorem sampleWordsDecode : Obligations.SampleWordsDecode :=
  ⟨decode_command_word (.hash true true), decode_command_word .pnext, rfl, decode_readRequest 5,
    decode_writeRequest 3 33, decode_microOp (p := .mulX) rfl, decode_microOp (p := .hBulkMx) rfl, rfl⟩

/-! ### Requests and commands at the port -/

/-- Settles O6: the line at the head of the script gives the host a step, and that step runs what it
decodes to. -/
theorem hostStepRunsTheDecodedRequest : Obligations.HostStepRunsTheDecodedRequest := by
  intro s r i ops hw hs hd
  refine ⟨fun gs ht => ?_, fun ht hc => ?_⟩
  · rw [step_host_turn ht, if_pos (hostReady_request (s := { s with turns := gs }) hw hs)]
    exact hostStep_request (s := { s with turns := gs }) hw hs hd
  · rw [step_host_free ht hc, if_pos (hostReady_request hw hs)]
    exact hostStep_request hw hs hd

/-- Accept of a legal word starts its command (44_host_port R247). -/
theorem accept_word (c : Command) (s : State) :
    accept c.word s = { s with cmdl := c.word.extractLsb' 0 5, done := false,
                               phase := Command.firstPhase c } := by
  rcases accept_cases c.word s with ⟨c', hc, he⟩ | ⟨hn, -⟩
  · rw [decodeCommand_word, Option.some.injEq] at hc
    rw [he, hc]
  · rw [decodeCommand_word] at hn
    cases hn

/-- A command row on an idle block is the accept of its word (30_encoding R102, log 16). -/
theorem exec_command_idle {s : State} (hp : s.phase = .idle) (c : Command) :
    exec c.toInstr s = .next { s with cmdl := c.word.extractLsb' 0 5, done := false,
                                      phase := Command.firstPhase c } := by
  rw [exec_command, ← accept_word]
  exact congrArg Host.Outcome.next (portWrite_idle hp 0 c.word)

/-- What the latch keeps of a `HASH` word: `OP` and the two flags (10_state R33, 30_encoding R93). -/
theorem hashWord_latch (bp sv : Bool) :
    ((Command.hash bp sv).word.extractLsb' 0 5).extractLsb' 0 3 = 2#3 ∧
    ((Command.hash bp sv).word.extractLsb' 0 5).getLsbD 3 = bp ∧
    ((Command.hash bp sv).word.extractLsb' 0 5).getLsbD 4 = sv := by
  revert bp sv; decide

/-- Settles O18, by the accept of the row's word. -/
theorem commandsAreAcceptedByAnIdleBlock : Obligations.CommandsAreAcceptedByAnIdleBlock := by
  intro s hp
  exact ⟨exec_command_idle hp .mul, exec_command_idle hp .pnext,
    fun bp sv => ⟨_, exec_command_idle hp (.hash bp sv), rfl, hashWord_latch bp sv⟩⟩

end Sys2Proof.Machine
end

section
/-! The digest of a passing `HASH`: the lanes that each load phase takes from the message, the passes of
the bulk loop, and the finalisation (42_digest_engine R170, R174). -/

namespace Sys2Proof.Machine

/-! ### Lanes of a message in memory -/

section
variable {s : State} {p : Nat} {msg : List Byte} (hm : s.holdsMessage p msg)
  (hf : p + msg.length ≤ s.inst.memSize)
include hm hf

/-- A lane inside a message that memory holds is the lane of these bytes. -/
theorem readLane_of_holdsMessage {addr : Int} (i n : Nat) (ha : addr = (p + i : Nat))
    (hi : i + n ≤ msg.length) (l : List ReadReq) (k : Word → State → Out) :
    readLane { s with readLog := l } addr n k =
      k (msgLane s.inst.byteOrder msg i n) { s with readLog := l ++ [⟨p + i, n⟩] } := by
  subst ha
  exact readLane_logged l k (by omega) (memBytes_of_holdsMessage hm i n hi)

theorem readByteIf_of_holdsMessage {c : Bool} {addr : Int} (i : Nat) (ha : addr = (p + i : Nat))
    (hi : c = true → i + 1 ≤ msg.length) (l : List ReadReq) (k : Word → State → Out) :
    readByteIf c { s with readLog := l } addr k =
      k (if c then msgByte msg i else 0)
        { s with readLog := l ++ if c then [⟨p + i, 1⟩] else [] } := by
  subst ha
  cases c with
  | false => simp [readByteIf]
  | true =>
    have hi := hi rfl
    exact readBytes_logged l _ (by omega) (memBytes_of_holdsMessage hm i 1 hi)

end

/-- The lane of the short path as `H_SHORT` puts it together: a byte that is not there counts 0. -/
theorem shortLane_eq_shifted_bytes (msg : List Byte) :
    shortLane msg = (if decide (1 ≤ msg.length) then msgByte msg 0 else 0) |||
      (if decide (2 ≤ msg.length) then msgByte msg 1 else 0) <<< 8 |||
      (if decide (msg.length = 3) then msgByte msg 2 else 0) <<< 16 := by
  simp only [shortLane, decide_eq_true_eq, apply_ite (fun x : Word => x <<< 8),
    apply_ite (fun x : Word => x <<< 16), BitVec.ofNat_eq_ofNat, BitVec.zero_shiftLeft]

/-- A load of `s` that answers `a` and `b` in the lanes and goes on to `ph`; besides, it logs its reads. -/
def LoadsLanes (s : State) (a b : Word) (ph : Phase) (o : Out) : Prop :=
  ∃ log, o = .next { s with la := a, lb := b, phase := ph, readLog := log }

section
variable {s : State} {p : Nat} {msg : List Byte} (hm : s.holdsMessage p msg)
  (hf : p + msg.length ≤ s.inst.memSize)
include hm hf

/-- Two lanes of eight bytes that follow one another, as `H_BULK_LD` and `H_TAIL` read them
(42_digest_engine R184, R190). -/
theorem loadsLanes_twoLanes {x y : Int} (i : Nat) (ph : Phase) (hx : x = (p + i : Nat))
    (hy : y = (p + (i + 8) : Nat)) (hi : i + 16 ≤ msg.length) :
    LoadsLanes s (msgLane s.inst.byteOrder msg i 8) (msgLane s.inst.byteOrder msg (i + 8) 8) ph
      (readLane s x 8 fun a t => readLane t y 8 fun b t =>
        .next { t with la := a, lb := b, phase := ph }) :=
  ⟨_, (readLane_of_holdsMessage hm hf i 8 hx (by omega) s.readLog _).trans
    (readLane_of_holdsMessage hm hf (i + 8) 8 hy (by omega) _ _)⟩

/-- `H_SHORT` assembles the lane of R170 byte by byte (42_digest_engine R180). -/
theorem execHShort_loadsLanes (hcur : s.cur.toNat = p) (hlen : s.len = msg.length) :
    LoadsLanes s (shortLane msg) 0 .hFin1 (execHShort s) := by
  subst hcur
  unfold execHShort
  rw [hlen, shortLane_eq_shifted_bytes]
  refine ⟨_, (readByteIf_of_holdsMessage hm hf 0 rfl ?_ s.readLog _).trans <|
    (readByteIf_of_holdsMessage hm hf 1 rfl ?_ _ _).trans <|
    readByteIf_of_holdsMessage hm hf 2 rfl ?_ _ _⟩
  all_goals
    intro h
    have := of_decide_eq_true h
    omega

/-- `H_MID` loads the four windows of R170 (42_digest_engine R182). -/
theorem execHMid_loadsLanes (hcur : s.cur.toNat = p) (hlen : s.len = msg.length)
    (h4 : 4 ≤ msg.length) (h16 : msg.length ≤ 16) :
    LoadsLanes s
      (msgLane s.inst.byteOrder msg 0 4 <<< 32 ||| msgLane s.inst.byteOrder msg (msg.length - 4) 4)
      (msgLane s.inst.byteOrder msg (midOffset msg.length) 4 <<< 32 |||
        msgLane s.inst.byteOrder msg (msg.length - 4 - midOffset msg.length) 4)
      .hFin1 (execHMid s) := by
  have hcurNat : s.curNat = (p : Nat) := by rw [State.curNat, hcur]
  have ho : midOffset msg.length ≤ msg.length - 4 := by unfold midOffset; omega
  unfold execHMid
  rw [hlen]
  exact ⟨_, (readLane_of_holdsMessage hm hf 0 4 (by omega) (by omega) s.readLog _).trans <|
    (readLane_of_holdsMessage hm hf (msg.length - 4) 4 (by omega) (by omega) _ _).trans <|
    (readLane_of_holdsMessage hm hf (midOffset msg.length) 4 (by omega) (by omega) _ _).trans <|
    readLane_of_holdsMessage hm hf (msg.length - 4 - midOffset msg.length) 4 (by omega) (by omega) _ _⟩

end

/-! ### The finalisation -/

/-- The end of a `HASH` with the digest `d`: of the block only the working registers, `RES0`, `DONE` and
`PHASE` differ from `s` (42_digest_engine R171). -/
def EndsWithDigest (d : Word) (s t : State) : Prop :=
  t = { s with s1 := t.s1, s2 := t.s2, ma := t.ma, mb := t.mb, la := t.la, lb := t.lb, cur := t.cur,
               rem := t.rem, readLog := t.readLog, res0 := d, done := true, phase := .idle }

/-- From the load of the final lanes the command ends in three steps (41_mix_unit R146, R147). -/
theorem run_finalLoad {s : State} {i : Instr} {a b : Word} (ht : s.turns = [])
    (hi : s.phase.microOp = some i) (h : LoadsLanes s a b .hFin1 (exec i s)) :
    ∃ t, run 3 s = .next t ∧ EndsWithDigest (finish (s.s1, s.s2) s.ma a b) s t := by
  obtain ⟨log, he⟩ := h
  have hrun : run 3 s = run 0 _ :=
    calc run 3 s
      _ = run 2 { s with la := a, lb := b, phase := .hFin1, readLog := log } :=
        run_of_microOp 2 ht hi he
      _ = run 1 _ := run_of_microOp 1 ht rfl rfl
      _ = run 0 _ := run_of_microOp 0 ht rfl rfl
  exact ⟨_, hrun, rfl⟩

/-! ### The bulk loop -/

theorem bulkLoop_step (o : Config.ByteOrder) (msg : List Byte) (ma mb : Word) (fuel c : Nat) {r : Nat}
    (x : Word × Word) (h : 16 < r) :
    bulkLoop o msg ma mb (fuel + 1) c r x =
      bulkLoop o msg ma mb fuel (c + 16) (r - 16)
        ((mulFull (msgLane o msg c 8 ^^^ x.1) (msgLane o msg (c + 8) 8 ^^^ x.2)).1 + ma,
          (mulFull (msgLane o msg c 8 ^^^ x.1) (msgLane o msg (c + 8) 8 ^^^ x.2)).2 + mb) :=
  if_pos h

theorem bulkLoop_done (o : Config.ByteOrder) (msg : List Byte) (ma mb : Word) (fuel c : Nat) {r : Nat}
    (x : Word × Word) (h : r ≤ 16) : bulkLoop o msg ma mb fuel c r x = x := by
  cases fuel with
  | zero => rfl
  | succ fuel => exact if_neg (by omega)

/-- The digest from a pass of the loop on: the loop on what remains, and the finalisation with the last
sixteen bytes (42_digest_engine R170). -/
def loopDigest (s : State) (msg : List Byte) (fuel : Nat) : Word :=
  finish
    (bulkLoop s.inst.byteOrder msg s.ma s.mb fuel (s.cur.toNat - s.arg0.toNat) s.rem.toNat (s.s1, s.s2))
    s.ma (msgLane s.inst.byteOrder msg (msg.length - 16) 8)
    (msgLane s.inst.byteOrder msg (msg.length - 8) 8)

/-- The product of a pass, with the two lanes of the message at the cursor (41_mix_unit R145). -/
def passProduct (s : State) (msg : List Byte) : Word × Word :=
  mulFull (msgLane s.inst.byteOrder msg (s.cur.toNat - s.arg0.toNat) 8 ^^^ s.s1)
    (msgLane s.inst.byteOrder msg (s.cur.toNat - s.arg0.toNat + 8) 8 ^^^ s.s2)

/-- `s` after a pass of the loop, with `a` and `b` in the lanes (41_mix_unit R145, 42_digest_engine
R186). -/
def afterPass (s : State) (msg : List Byte) (a b : Word) (log : List ReadReq) : State :=
  { s with
    s1 := (passProduct s msg).1 + s.ma, s2 := (passProduct s msg).2 + s.mb, la := a, lb := b,
    cur := truncAddr s.inst (s.cur + 16), rem := s.rem - 16,
    phase := if 16 < (s.rem - 16).toNat then .hBulkLd else .hTail, readLog := log }

section
variable {s : State} {msg : List Byte} (ht : s.turns = []) (hc : s.checksPass)
  (hlen : s.len = msg.length) (h17 : 17 ≤ s.len) (hm : s.holdsMessage s.arg0.toNat msg)
  (hloop : s.cursorInLoop)
include ht hc hlen h17 hm hloop

/-- The tail ends the loop (42_digest_engine R190). -/
theorem run_tail (hp : s.phase = .hTail) (h16 : s.rem.toNat ≤ 16) (fuel : Nat) :
    ∃ t, run 3 s = .next t ∧ EndsWithDigest (loopDigest s msg fuel) s t := by
  have hfit : s.arg0.toNat + s.len ≤ s.inst.memSize := hc.message_fits (by omega)
  obtain ⟨-, -, (hend : s.cur.toNat + s.rem.toNat = s.arg0.toNat + s.len)⟩ := hloop
  have load := loadsLanes_twoLanes hm (hlen ▸ hfit) (msg.length - 16) .hFin1
    (x := s.curNat + s.rem.toNat - 16) (y := s.curNat + s.rem.toNat - 8)
    (by simp only [State.curNat]; omega) (by simp only [State.curNat]; omega) (by omega)
  rw [show msg.length - 16 + 8 = msg.length - 8 by omega] at load
  rw [loopDigest, bulkLoop_done _ _ _ _ _ _ _ h16]
  exact run_finalLoad (i := .hTail) ht (by rw [hp]; rfl) load

theorem run_afterPass (hp : s.phase = .hBulkLd) (h16 : 16 < s.rem.toNat) :
    ∃ a b log, run 2 s = .next (afterPass s msg a b log) := by
  have hfit : s.arg0.toNat + s.len ≤ s.inst.memSize := hc.message_fits (by omega)
  obtain ⟨hge, -, (hend : s.cur.toNat + s.rem.toNat = s.arg0.toNat + s.len)⟩ := hloop
  obtain ⟨log, load⟩ := loadsLanes_twoLanes hm (hlen ▸ hfit) (s.cur.toNat - s.arg0.toNat) .hBulkMx
    (x := s.curNat) (y := s.curNat + 8)
    (by simp only [State.curNat]; omega) (by simp only [State.curNat]; omega) (by omega)
  exact ⟨_, _, log, (run_of_microOp (i := .hBulkLd) 1 ht (by rw [hp]; rfl) load).trans
    (run_of_microOp 0 ht rfl rfl)⟩

end

/-- A pass of the machine is a pass of R170's loop. -/
theorem loopDigest_afterPass {s : State} {msg : List Byte} {a b : Word} {log : List ReadReq}
    (h16 : 16 < s.rem.toNat) (hge : s.arg0.toNat ≤ s.cur.toNat)
    (hcur : (afterPass s msg a b log).cur.toNat = s.cur.toNat + 16)
    (hrem : (afterPass s msg a b log).rem.toNat = s.rem.toNat - 16) (fuel : Nat) :
    loopDigest s msg (fuel + 1) = loopDigest (afterPass s msg a b log) msg fuel := by
  rw [loopDigest, bulkLoop_step _ _ _ _ _ _ _ h16, loopDigest, hcur, hrem,
    ← Nat.sub_add_comm hge]
  rfl

/-- The whole loop from any of its passes on, and the tail: `bulkCount` passes of what remains
(42_digest_engine R188). -/
theorem run_bulkLoop {s : State} {msg : List Byte} {k fuel : Nat} (ht : s.turns = [])
    (hc : s.checksPass) (hlen : s.len = msg.length) (h17 : 17 ≤ s.len)
    (hm : s.holdsMessage s.arg0.toNat msg) (hloop : s.cursorInLoop) (hleg : s.inst.legal = true)
    (hp : s.phase = if 16 < s.rem.toNat then .hBulkLd else .hTail)
    (hk : bulkCount s.rem.toNat = k) (hfuel : k ≤ fuel) :
    ∃ t, run (2 * k + 3) s = .next t ∧ EndsWithDigest (loopDigest s msg fuel) s t := by
  unfold bulkCount at hk
  induction k generalizing s fuel with
  | zero =>
    rw [if_neg (by omega)] at hp
    exact run_tail ht hc hlen h17 hm hloop hp (by omega) fuel
  | succ k ih =>
    obtain ⟨fuel, rfl⟩ : ∃ f, fuel = f + 1 := ⟨fuel - 1, by omega⟩
    have h16 : 16 < s.rem.toNat := by omega
    have ⟨hge, _, _⟩ := hloop
    rw [if_pos h16] at hp
    obtain ⟨a, b, log, hpass⟩ := run_afterPass ht hc hlen h17 hm hloop hp h16
    obtain ⟨hloop', hcur, hrem⟩ := hloop.advance hc hleg h16 (by omega)
      (t := afterPass s msg a b log) rfl rfl rfl rfl
    rw [show 2 * (k + 1) + 3 = 2 + (2 * k + 3) by ring, run_add_of_next hpass,
      loopDigest_afterPass h16 hge hcur hrem]
    exact ih (s := afterPass s msg a b log) ht hc hlen h17 hm hloop' hleg rfl (by omega) (by omega)

/-! ### By path -/

/-- Where a passing `HASH` enters its path the message stands at the cursor, inside message memory; an
empty message does so at any address. -/
theorem pathStart_holdsMessage {s : State} {msg : List Byte} (hc : s.checksPass)
    (hlen : s.len = msg.length) (hm : s.holdsMessage s.arg0.toNat msg) :
    (pathStart s).holdsMessage (pathStart s).cur.toNat msg ∧
      (pathStart s).cur.toNat + msg.length ≤ s.inst.memSize := by
  rcases pathStart_window hc with h0 | ⟨-, hcur, hfit⟩
  · have hlt : (pathStart s).cur.toNat < s.inst.memSize := truncAddr_lt _ _
    exact ⟨fun i hi => by omega, by omega⟩
  · rw [hcur, ← hlen]
    exact ⟨hm, hfit⟩

theorem ofNat_length_eq_arg1 {s : State} {msg : List Byte} (hlen : s.len = msg.length) :
    BitVec.ofNat 64 msg.length = s.arg1 := by
  rw [← hlen, State.len, BitVec.ofNat_toNat, BitVec.setWidth_eq]

/-- A passing `HASH` of a long message where its loop begins (41_mix_unit R144). -/
def longStart (s : State) : State :=
  { pathStart s with ma := (pathStart s).ma ^^^ (pathStart s).s1, phase := .hBulkLd }

/-- Where the loop begins its digest is that of the whole message. -/
theorem loopDigest_longStart {s : State} {msg : List Byte} (hlen : s.len = msg.length)
    (hcur : (pathStart s).cur = s.arg0) (h17 : 17 ≤ s.len) :
    loopDigest (longStart s) msg msg.length = hash64 s.inst.byteOrder msg s.seed := by
  have hoffset : (longStart s).cur.toNat - (longStart s).arg0.toNat = 0 :=
    Nat.sub_eq_zero_of_le (congrArg BitVec.toNat hcur).le
  have hrem : (longStart s).rem.toNat = msg.length := hlen
  rw [hash64_long _ _ _ (by omega), ofNat_length_eq_arg1 hlen, loopDigest, hoffset, hrem]
  rfl

section
variable {s : State} {msg : List Byte} (ht : s.turns = []) (hc : s.checksPass)
  (hlen : s.len = msg.length) (hm : s.holdsMessage s.arg0.toNat msg)
include ht hc hlen hm

theorem run_shortPath (hl : s.len ≤ 3) (hp : pathOf s.arg1 = .hShort) :
    ∃ t, run 3 (pathStart s) = .next t ∧
      EndsWithDigest (hash64 s.inst.byteOrder msg s.seed) s t := by
  obtain ⟨hm', hf⟩ := pathStart_holdsMessage hc hlen hm
  rw [hash64_short _ _ _ (hlen ▸ hl), ofNat_length_eq_arg1 hlen]
  exact run_finalLoad (s := pathStart s) (i := .hShort) ht (by rw [pathStart, hp]; rfl)
    (execHShort_loadsLanes hm' hf rfl hlen)

theorem run_midPath (h4 : 4 ≤ s.len) (h16 : s.len ≤ 16) (hp : pathOf s.arg1 = .hMid) :
    ∃ t, run 3 (pathStart s) = .next t ∧
      EndsWithDigest (hash64 s.inst.byteOrder msg s.seed) s t := by
  obtain ⟨hm', hf⟩ := pathStart_holdsMessage hc hlen hm
  rw [hash64_mid _ _ _ (by omega) (hlen ▸ h16), ofNat_length_eq_arg1 hlen]
  exact run_finalLoad (s := pathStart s) (i := .hMid) ht (by rw [pathStart, hp]; rfl)
    (execHMid_loadsLanes hm' hf rfl hlen (hlen ▸ h4) (hlen ▸ h16))

theorem run_longPath (hleg : s.inst.legal = true) (h17 : 17 ≤ s.len) (hp : pathOf s.arg1 = .hLong) :
    ∃ t, run (1 + (2 * bulkCount s.len + 3)) (pathStart s) = .next t ∧
      EndsWithDigest (hash64 s.inst.byteOrder msg s.seed) s t := by
  rcases pathStart_window hc with h0 | ⟨hl, hcur, -⟩
  · omega
  have hlong : run 1 (pathStart s) = .next (longStart s) :=
    run_of_microOp (i := .hLong) 0 ht (by rw [pathStart, hp]; rfl) rfl
  have hloop : (longStart s).cursorInLoop := State.cursorAtStart.inLoop ⟨rfl, rfl⟩ hc hl
  have hrem : 16 < (longStart s).rem.toNat := h17
  rw [run_add_of_next hlong, ← loopDigest_longStart hlen hcur h17]
  exact run_bulkLoop (s := longStart s) ht hc hlen h17 hm hloop hleg (if_pos hrem).symm rfl
    (by unfold bulkCount; omega)

end

/-- The whole of a passing `HASH`, from `H_CHECK` to its last step (42_digest_engine R193, R171, R175). -/
theorem run_passingHash {s : State} {msg : List Byte} (hleg : s.inst.legal = true)
    (hp : s.phase = .hCheck) (ht : s.turns = []) (hc : s.checksPass) (hlen : s.len = msg.length)
    (hm : s.holdsMessage s.arg0.toNat msg) :
    ∃ t, run (hashSteps msg.length) s = .next t ∧
      EndsWithDigest (hash64 s.inst.byteOrder msg s.seed) s t := by
  have hstart := run_pathStart hp ht hc
  have hpath : (s.len ≤ 3 ∧ _) ∨ (4 ≤ s.len ∧ s.len ≤ 16 ∧ _) ∨ (17 ≤ s.len ∧ _) :=
    pathOf_cases s.arg1
  rw [← hlen, hashSteps]
  rcases hpath with ⟨hl, he⟩ | ⟨h4, h16, he⟩ | ⟨h17, he⟩
  · rw [if_pos (by omega), run_add_of_next (k := 3) hstart]
    exact run_shortPath ht hc hlen hm hl he
  · rw [if_pos h16, run_add_of_next (k := 3) hstart]
    exact run_midPath ht hc hlen hm h4 h16 he
  · rw [if_neg (by omega), show ∀ n, 8 + 2 * n = 4 + (1 + (2 * n + 3)) by omega,
      run_add_of_next hstart]
    exact run_longPath ht hc hlen hm hleg h17 he

end Sys2Proof.Machine
end

section
/-! The host's scripts on an idle block with no turn set (30_encoding R102, R103, 44_host_port R249): its
lines one by one, and the pseudo-operations put together from them. -/

namespace Sys2Proof.Machine

/-! ### The lines -/

/-- An idle block with nothing at the port and no turn set, whose host goes on with the lines `ops`. -/
structure State.IdleWith (s : State) (ops : List HostOp) : Prop where
  phase : s.phase = .idle
  waiting : s.waiting = []
  turns : s.turns = []
  script : s.script = ops

section
variable {s : State} {ops : List HostOp} (k : Nat)

theorem run_lineWr {n : RegNum} {v : Word} (h : s.IdleWith (lineWr n v :: ops)) :
    run (k + 1) s = run k (takeWrite n v { s with script := ops }) :=
  run_of_step k (step_lineWr h.phase h.waiting h.turns h.script)

/-- A command's line starts its command (44_host_port R247). -/
theorem run_lineCommand (c : Command) (h : s.IdleWith (lineWr regCmd c.word :: ops)) :
    run (k + 1) s = run k { s with script := ops, cmdl := c.word.extractLsb' 0 5, done := false,
                                   phase := Command.firstPhase c } := by
  rw [run_lineWr k h]
  exact congrArg (run k) (accept_word c _)

theorem run_lineRd {n : RegNum} (h : s.IdleWith (lineRd n :: ops)) :
    run (k + 1) s = run k { s with script := ops, results := s.results ++ [portRead n s] } :=
  run_of_step k (step_lineRd h.phase h.waiting h.turns h.script)

/-- After a command has completed, the first poll of `wait` finds it done, and `RES0` is read. -/
theorem run_waitRes0 (h : s.IdleWith (.wait :: lineRd regRes0 :: ops)) (hd : s.done = true)
    (hc : s.cause = .noFault) :
    run (k + 2) s = run k { s with script := ops, results := s.results ++ [0x2, s.res0] } := by
  have hpoll := run_of_step (k + 1) (step_lineWait h.phase h.waiting h.turns h.script)
  rw [status_completed h.phase hd hc] at hpoll
  have hread := run_lineRd (s := { s with script := lineRd regRes0 :: ops, results := s.results ++ [2] })
    k ⟨h.phase, h.waiting, h.turns, rfl⟩
  rw [List.append_assoc] at hread
  exact hpoll.trans hread

end

/-! ### `mul64` -/

theorem run_scriptMul64 {s : State} {u v : Word} {rest : List HostOp}
    (h : s.IdleWith (scriptMul64 u v ++ rest)) (hc : s.cause = .noFault) :
    run 7 s = .next { s with
      arg0 := u, arg1 := v, cmdl := 0b00001, res0 := (mulFull u v).1, res1 := (mulFull u v).2,
      done := true, phase := .idle, script := rest,
      results := s.results ++ [0x2, (mulFull u v).1] ++ [(mulFull u v).2] } := by
  obtain ⟨hp, hw, ht, hs⟩ := h
  calc run 7 s
    _ = run 6 _ := run_lineWr 6 ⟨hp, hw, ht, hs⟩
    _ = run 5 _ := run_lineWr 5 ⟨hp, hw, ht, rfl⟩
    _ = run 4 _ := run_lineCommand 4 .mul ⟨hp, hw, ht, rfl⟩
    _ = run 3 _ := run_of_microOp (i := .mulX) 3 ht rfl rfl
    _ = run 1 _ := run_waitRes0 1 ⟨rfl, hw, ht, rfl⟩ rfl hc
    _ = run 0 _ := run_lineRd 0 ⟨rfl, hw, ht, rfl⟩

/-- Settles O54, by the run of the script's lines. -/
theorem mulScriptReturnsTheProduct : Obligations.MulScriptReturnsTheProduct := by
  intro s u v rest hp hw ht hc hs
  exact ⟨_, _, _, run_scriptMul64 ⟨hp, hw, ht, hs⟩ hc, mulFull_exact u v,
    List.append_assoc _ _ _, rfl, rfl⟩

/-! ### `seed` and `next` -/

theorem run_scriptNext {s : State} {rest : List HostOp} (h : s.IdleWith (scriptNext ++ rest))
    (hc : s.cause = .noFault) :
    run 4 s = .next { s with
      cmdl := 0b00011, p1 := (prngStep s.p1 s.p2).1, p2 := (prngStep s.p1 s.p2).2.1,
      res0 := (prngStep s.p1 s.p2).2.2, done := true, phase := .idle, script := rest,
      results := s.results ++ [0x2, (prngStep s.p1 s.p2).2.2] } := by
  obtain ⟨hp, hw, ht, hs⟩ := h
  calc run 4 s
    _ = run 3 _ := run_lineCommand 3 .pnext ⟨hp, hw, ht, hs⟩
    _ = run 2 _ := run_of_microOp (i := .prngX) 2 ht rfl rfl
    _ = run 0 _ := run_waitRes0 0 ⟨rfl, hw, ht, rfl⟩ rfl hc

/-- The new cells are the halves of the exact product of the wrapped sums (43_prng_stepper R220). -/
theorem prngStep_exact (a b : Word) :
    (prngStep a b).2.1.toNat * 2 ^ 64 + (prngStep a b).1.toNat =
      ((a.toNat + 0x5555555555555555) % 2 ^ 64) * ((b.toNat + 0xAAAAAAAAAAAAAAAA) % 2 ^ 64) :=
  by
  have h := mulFull_exact (a + val01) (b + val10)
  rwa [BitVec.toNat_add, BitVec.toNat_add] at h

/-- Settles O55: two writes of the cells, and the run of `next`. -/
theorem seedAndNextScriptsStepTheCells : Obligations.SeedAndNextScriptsStepTheCells := by
  refine ⟨fun s a b rest hp hw ht hs => ?_, fun s rest hp hw ht hc hs => ?_⟩
  · calc run 2 s
      _ = run 1 _ := run_lineWr 1 ⟨hp, hw, ht, hs⟩
      _ = run 0 _ := run_lineWr 0 ⟨hp, hw, ht, rfl⟩
  · exact ⟨_, run_scriptNext ⟨hp, hw, ht, hs⟩ hc, prngStep_exact s.p1 s.p2, rfl, rfl, rfl⟩

/-! ### `hash64` -/

/-- What a script leaves that ends by reading the digest `d`. -/
def ReturnsDigest (s : State) (d : Word) (rest : List HostOp) (t : State) : Prop :=
  t.results = s.results ++ [0x2, d] ∧ t.script = rest ∧ t.phase = .idle

/-- `wait` and the read of `RES0` behind a `HASH` that has ended. -/
theorem run_waitDigest {s t : State} {d : Word} {rest : List HostOp} (h : EndsWithDigest d s t)
    (hw : s.waiting = []) (ht : s.turns = []) (hc : s.cause = .noFault)
    (hs : s.script = .wait :: lineRd regRes0 :: rest) :
    ∃ u, run 2 t = .next u ∧ ReturnsDigest s d rest u := by
  have hidle : t.IdleWith (.wait :: lineRd regRes0 :: rest) :=
    ⟨congrArg State.phase h, (congrArg State.waiting h).trans hw, (congrArg State.turns h).trans ht,
      (congrArg State.script h).trans hs⟩
  have hres : t.res0 = d := congrArg State.res0 h
  have hresults : t.results = s.results := by rw [h]
  refine ⟨_, run_waitRes0 0 hidle (congrArg State.done h) ((congrArg State.cause h).trans hc),
    ?_, rfl, hidle.phase⟩
  rw [hres, hresults]

/-- The last lines of each `hash64` script: a command whose checks pass, and the digest read. -/
theorem run_hashLines {s : State} {bp sv : Bool} {msg : List Byte} {rest : List HostOp}
    (h : s.IdleWith (lineWr regCmd (Command.hash bp sv).word :: .wait :: lineRd regRes0 :: rest))
    (hleg : s.inst.legal = true) (hc : s.cause = .noFault) (hlen : msg.length = s.arg1.toNat)
    (hchecks : s.arg1 = 0 ∨ (bp = true ∧ s.arg0.toNat + s.arg1.toNat ≤ s.inst.memSize))
    (hm : s.holdsMessage s.arg0.toNat msg) :
    ∃ t, run (hashSteps msg.length + 3) s = .next t ∧
      ReturnsDigest s (hash64 s.inst.byteOrder msg (if sv then s.arg2 else 0)) rest t := by
  obtain ⟨-, hbp, hsv⟩ := hashWord_latch bp sv
  have hcommand := run_lineCommand (hashSteps msg.length + 2) (.hash bp sv) h
  obtain ⟨t, hrun, hend⟩ := run_passingHash (msg := msg)
    (s := { s with script := .wait :: lineRd regRes0 :: rest, done := false, phase := .hCheck
                   cmdl := (Command.hash bp sv).word.extractLsb' 0 5 })
    hleg rfl h.turns (by simpa only [State.checksPass, State.bp, hbp] using hchecks) hlen.symm hm
  simp only [State.seed, State.sv, hsv] at hend
  obtain ⟨u, hread, hdigest⟩ := run_waitDigest hend h.waiting h.turns hc rfl
  exact ⟨u, hcommand.trans ((run_add_of_next hrun).trans hread), hdigest⟩

/-- Settles O56: each script writes its operands, and then its command finds the message or, of the
absent buffer, none. -/
theorem hashScriptsReturnTheDigest : Obligations.HashScriptsReturnTheDigest := by
  intro s ptr len seed msg rest hleg hp hw ht hc
  refine ⟨fun hlen hfit hm => ⟨fun hs => ?_, fun hs => ?_⟩, fun hs => ?_⟩
  · have hoperands : run (hashSteps msg.length + 6) s = run (hashSteps msg.length + 3) _ :=
      calc run (hashSteps msg.length + 6) s
        _ = run (hashSteps msg.length + 5) _ := run_lineWr _ ⟨hp, hw, ht, hs⟩
        _ = run (hashSteps msg.length + 4) _ := run_lineWr _ ⟨hp, hw, ht, rfl⟩
        _ = run (hashSteps msg.length + 3) _ := run_lineWr _ ⟨hp, hw, ht, rfl⟩
    rw [hoperands]
    exact run_hashLines (bp := true) (sv := true) ⟨hp, hw, ht, rfl⟩ hleg hc hlen
      (hfit.imp_right fun hf => ⟨rfl, hf⟩) hm
  · have hoperands : run (hashSteps msg.length + 5) s = run (hashSteps msg.length + 3) _ :=
      calc run (hashSteps msg.length + 5) s
        _ = run (hashSteps msg.length + 4) _ := run_lineWr _ ⟨hp, hw, ht, hs⟩
        _ = run (hashSteps msg.length + 3) _ := run_lineWr _ ⟨hp, hw, ht, rfl⟩
    rw [hoperands]
    exact run_hashLines (bp := true) (sv := false) ⟨hp, hw, ht, rfl⟩ hleg hc hlen
      (hfit.imp_right fun hf => ⟨rfl, hf⟩) hm
  · have hoperands : run (hashSteps 0 + 5) s = run (hashSteps 0 + 3) _ :=
      calc run (hashSteps 0 + 5) s
        _ = run (hashSteps 0 + 4) _ := run_lineWr _ ⟨hp, hw, ht, hs⟩
        _ = run (hashSteps 0 + 3) _ := run_lineWr _ ⟨hp, hw, ht, rfl⟩
    rw [hoperands]
    exact run_hashLines (bp := false) (sv := true) (msg := []) ⟨hp, hw, ht, rfl⟩ hleg hc rfl
      (.inl rfl) nofun

end Sys2Proof.Machine
end

section
/-! The multiplier (40_multiplier R120 to R126): the laws of the product, the schoolbook decomposition,
and the command `mul`. -/

namespace Sys2Proof.Machine

/-! ### The laws of the product -/

@[simp] theorem mulFull_zero (u : Word) : mulFull u 0 = (0, 0) := mulFull_unique rfl

@[simp] theorem zero_mulFull (u : Word) : mulFull 0 u = (0, 0) := by
  rw [mulFull_comm, mulFull_zero]

@[simp] theorem one_mulFull (v : Word) : mulFull 1 v = (v, 0) := mulFull_unique (by simp)

theorem mulFull_max :
    mulFull 0xFFFFFFFFFFFFFFFF 0xFFFFFFFFFFFFFFFF = (0x1, 0xFFFFFFFFFFFFFFFE) :=
  mulFull_unique rfl

/-- An operand below the maximum keeps the high half below its bound. -/
theorem mulFull_snd_lt_of_ne_max {u : Word} (hu : u ≠ 0xFFFFFFFFFFFFFFFF) (v : Word) :
    (mulFull u v).2.toNat < 2 ^ 64 - 2 := by
  have hlt : u.toNat < 2 ^ 64 - 1 := by bv_omega
  rw [mulFull_snd_toNat]
  refine Nat.div_lt_of_lt_mul ?_
  calc u.toNat * v.toNat
    _ ≤ (2 ^ 64 - 2) * v.toNat := Nat.mul_le_mul_right _ (by omega)
    _ < (2 ^ 64 - 2) * 2 ^ 64 := Nat.mul_lt_mul_of_pos_left v.isLt (by decide)
    _ = 2 ^ 64 * (2 ^ 64 - 2) := Nat.mul_comm _ _

/-- The bound of the high half, reached by the two maxima alone. -/
theorem mulFull_snd_bound (u v : Word) :
    (mulFull u v).2.toNat ≤ 2 ^ 64 - 2 ∧
      ((mulFull u v).2.toNat = 2 ^ 64 - 2 → u = 0xFFFFFFFFFFFFFFFF ∧ v = 0xFFFFFFFFFFFFFFFF) := by
  by_cases hu : u = 0xFFFFFFFFFFFFFFFF
  · by_cases hv : v = 0xFFFFFFFFFFFFFFFF
    · subst hu hv
      exact ⟨by rw [mulFull_max]; decide, fun _ => ⟨rfl, rfl⟩⟩
    · have hlt := mulFull_snd_lt_of_ne_max hv u
      rw [mulFull_comm] at hlt
      exact ⟨hlt.le, fun h => absurd h hlt.ne⟩
  · have hlt := mulFull_snd_lt_of_ne_max hu v
    exact ⟨hlt.le, fun h => absurd h hlt.ne⟩

theorem toNat_ofNat_two_pow {n : Nat} (h : n ≤ 63) : (BitVec.ofNat 64 (2 ^ n)).toNat = 2 ^ n := by
  rw [BitVec.toNat_ofNat]
  exact Nat.mod_eq_of_lt (Nat.pow_lt_pow_right (by decide) (by omega))

/-- Two single bits make the single bit `a + b` of the 128-bit product, in the half where it lies. -/
theorem mulFull_two_pow {a b : Nat} (ha : a ≤ 63) (hb : b ≤ 63) :
    mulFull (BitVec.ofNat 64 (2 ^ a)) (BitVec.ofNat 64 (2 ^ b)) =
      if a + b ≤ 63 then (BitVec.ofNat 64 (2 ^ (a + b)), 0)
      else (0, BitVec.ofNat 64 (2 ^ (a + b - 64))) := by
  split_ifs with hab
  · refine mulFull_unique ?_
    rw [toNat_ofNat_two_pow ha, toNat_ofNat_two_pow hb, toNat_ofNat_two_pow hab, ← pow_add]
    exact Nat.zero_add _
  · refine mulFull_unique ?_
    rw [toNat_ofNat_two_pow ha, toNat_ofNat_two_pow hb, toNat_ofNat_two_pow (by omega), ← pow_add,
      ← pow_add, Nat.sub_add_cancel (by omega)]
    rfl

theorem mulFull_eq_zero_iff (u v : Word) : mulFull u v = (0, 0) ↔ u = 0 ∨ v = 0 := by
  constructor
  · intro h
    have hprod := mulFull_exact u v
    rw [h] at hprod
    exact (Nat.mul_eq_zero.mp hprod.symm).imp BitVec.eq_of_toNat_eq BitVec.eq_of_toNat_eq
  · rintro (rfl | rfl)
    · exact zero_mulFull v
    · exact mulFull_zero u

/-- The low half keeps the product's parity. -/
theorem mulFull_fst_odd_iff (u v : Word) :
    (mulFull u v).1.toNat % 2 = 1 ↔ u.toNat % 2 = 1 ∧ v.toNat % 2 = 1 := by
  rw [mulFull_fst_toNat, Nat.mod_mod_of_dvd _ (by decide)]
  simp only [← Nat.odd_iff, Nat.odd_mul]

/-- Settles O25, law by law. -/
theorem productLaws : Obligations.ProductLaws :=
  ⟨mulFull_comm, fun u => ⟨zero_mulFull u, mulFull_zero u⟩, one_mulFull, mulFull_max,
    mulFull_snd_bound, fun _ _ => mulFull_two_pow, mulFull_eq_zero_iff, mulFull_fst_odd_iff⟩

/-! ### The schoolbook decomposition -/

/-- The product by columns of its four partial products. -/
theorem mul_eq_partialProducts (a b : Nat) :
    a * b = a / 2 ^ 32 * (b / 2 ^ 32) * 2 ^ 64 +
      (a % 2 ^ 32 * (b / 2 ^ 32) + a / 2 ^ 32 * (b % 2 ^ 32)) * 2 ^ 32 +
      a % 2 ^ 32 * (b % 2 ^ 32) := by
  conv_lhs => rw [← Nat.div_add_mod a (2 ^ 32), ← Nat.div_add_mod b (2 ^ 32)]
  ring

/-- Carrying from column to column keeps the sum: `mid` is the second column with its carry in. -/
theorem partialProducts_carry (p00 p01 p10 p11 : Nat) {mid : Nat}
    (hmid : mid = p00 / 2 ^ 32 + p01 % 2 ^ 32 + p10 % 2 ^ 32) :
    (p11 + p01 / 2 ^ 32 + p10 / 2 ^ 32 + mid / 2 ^ 32) * 2 ^ 64 +
      (mid % 2 ^ 32 * 2 ^ 32 + p00 % 2 ^ 32) = p11 * 2 ^ 64 + (p01 + p10) * 2 ^ 32 + p00 := by
  omega

theorem toNat_ofNat_append_ofNat (a b : Nat) :
    (BitVec.ofNat 32 a ++ BitVec.ofNat 32 b).toNat = a % 2 ^ 32 * 2 ^ 32 + b % 2 ^ 32 := by
  rw [BitVec.toNat_append, ← Nat.shiftLeft_add_eq_or_of_lt (BitVec.isLt _), Nat.shiftLeft_eq,
    BitVec.toNat_ofNat, BitVec.toNat_ofNat]

/-- A high part that makes the product with a low half fits in its half: `hi` does not wrap. -/
theorem mulFull_eq_of_nat {u v lo : Word} {hi : Nat}
    (h : hi * 2 ^ 64 + lo.toNat = u.toNat * v.toNat) : mulFull u v = (lo, BitVec.ofNat 64 hi) := by
  have hlt := toNat_mul_lt u v
  refine mulFull_unique ?_
  rw [BitVec.toNat_ofNat, Nat.mod_eq_of_lt (by omega), h]

/-- Settles O26: both pairs make the same natural number, the product by columns. -/
theorem schoolbookIsTheProduct : Obligations.SchoolbookIsTheProduct := by
  intro u v
  refine (mulFull_eq_of_nat ?_).symm
  rw [toNat_ofNat_append_ofNat, mul_eq_partialProducts u.toNat]
  exact partialProducts_carry _ _ _ _ rfl

/-! ### The command `mul` -/

theorem exec_mulX (s : State) :
    exec .mulX s = .next { s with res0 := (mulFull s.arg0 s.arg1).1,
                                  res1 := (mulFull s.arg0 s.arg1).2,
                                  done := true, phase := .idle } := rfl

/-- Settles O24, by the accept of a command row and the exactness of the product. -/
theorem mulWritesTheExactProduct : Obligations.MulWritesTheExactProduct :=
  ⟨fun _ hp => exec_command_idle hp .mul,
    fun s => ⟨_, exec_mulX s, mulFull_exact s.arg0 s.arg1, rfl⟩⟩

end Sys2Proof.Machine
end

section
/-! The round constants (41_mix_unit R142 to R150): what the mixing phases write, the one update of `MA`,
and the constants as functions of `LEN` and `SEED` in every phase. -/

namespace Sys2Proof.Machine

/-! ### The mixing phases -/

/-- Settles O31: `CUR` keeps of `ARG0` the remainder by `2^ADDR_W`. -/
theorem initSetsThePairAndTheCursor : Obligations.InitSetsThePairAndTheCursor := fun s =>
  ⟨_, rfl, rfl, rfl, rfl, rfl, truncAddr_toNat s.inst s.arg0, rfl, rfl⟩

/-- Settles O32, by the exactness of the product. -/
theorem seedIsInjectedThroughTheMasks : Obligations.SeedIsInjectedThroughTheMasks := by
  rintro s _ rfl
  exact ⟨_, rfl, mulFull_exact _ _, rfl, rfl⟩

/-- Settles O40, by the exactness of the product. -/
theorem firstFinalMix : Obligations.FirstFinalMix := fun _ =>
  ⟨_, rfl, mulFull_exact _ _, rfl⟩

/-- Settles O41, by the exactness of the product. -/
theorem secondFinalMixGivesTheDigest : Obligations.SecondFinalMixGivesTheDigest := fun _ =>
  ⟨_, rfl, mulFull_exact _ _, rfl, rfl⟩

/-- Where the rest of the message reaches past the next block and ends inside message memory, the cursor
advances without a wrap (42_digest_engine R186, log 8). -/
theorem truncAddr_nextBlock {p : Config.Params} {cur rem : Word} (hleg : p.legal = true)
    (hr : 16 < rem.toNat) (hf : cur.toNat + rem.toNat ≤ p.memSize) :
    (truncAddr p (cur + 16)).toNat = cur.toNat + 16 := by
  have hsize := memSize_le hleg
  have hsum : (cur + 16).toNat = cur.toNat + 16 := by bv_omega
  rw [truncAddr_of_lt (by omega), hsum]

/-- Settles O38: the product is exact, and neither the cursor nor the remaining length wraps. -/
theorem bulkMixAddsTheRoundConstants : Obligations.BulkMixAddsTheRoundConstants := by
  intro s hleg hr hf
  have hrem : (s.rem - 16).toNat = s.rem.toNat - 16 := by bv_omega
  exact ⟨_, _, _, rfl, mulFull_exact (s.la ^^^ s.s1) (s.lb ^^^ s.s2), BitVec.toNat_add _ _,
    BitVec.toNat_add _ _, truncAddr_nextBlock hleg hr hf, hrem, rfl, rfl⟩

/-! ### The one update of `MA` -/

/-- The column of `MA` in the write matrix. -/
theorem exec_ma {i : Instr} {s t : State} (h : exec i s = .next t) (h1 : i ≠ .hInit)
    (h2 : i ≠ .hLong) : t.ma = s.ma := by
  obtain ⟨-, -, -, -, -, -, -, -, -, -, -, -, hma, -⟩ := writeMatrix i s t h
  exact hma h1 h2

/-- A write that is taken leaves the phase, or it is the accept of a command or its fault
(44_host_port R247). -/
theorem takeWrite_phase (n : RegNum) (v : Word) (s : State) :
    (takeWrite n v s).phase = s.phase ∨ (takeWrite n v s).phase = .fault ∨
      ∃ c, (takeWrite n v s).phase = Command.firstPhase c := by
  rcases takeWrite_cases n v s with he | he | he | he | he | he | he <;> rw [he]
  · rcases accept_cases v s with ⟨c, -, ha⟩ | ⟨-, ha⟩ <;> rw [ha]
    · exact .inr (.inr ⟨c, rfl⟩)
    · exact .inr (.inl rfl)
  all_goals exact .inl rfl

/-- `H_LONG` is the successor of `H_SELECT` alone, for a length of 17 or more (42_digest_engine R174,
R176). -/
theorem microOp_enters_hLong {i : Instr} {s t : State} (hm : isMicroOp i = true)
    (h : exec i s = .next t) (ht : t.phase = .hLong) : i = .hSelect ∧ 17 ≤ s.arg1.toNat := by
  cases i <;> simp only [isMicroOp, reduceCtorEq] at hm <;> simp only [exec] at h
  case hSelect =>
    cases h
    rcases pathOf_cases s.arg1 with ⟨-, hp⟩ | ⟨-, -, hp⟩ | ⟨hl, -⟩
    · simp [hp] at ht
    · simp [hp] at ht
    · exact ⟨rfl, hl⟩
  case hCheck => unfold execHCheck at h; split_ifs at h <;> cases h <;> simp at ht
  case hShort => obtain ⟨_, _, _, rfl⟩ := execHShort_next h; cases ht
  case hMid => obtain ⟨_, _, _, rfl⟩ := execHMid_next h; cases ht
  case hTail => obtain ⟨_, _, _, rfl⟩ := execHTail_next h; cases ht
  case hBulkLd => obtain ⟨_, _, _, rfl⟩ := execHBulkLd_next h; cases ht
  case hBulkMx => cases h; simp only at ht; split at ht <;> cases ht
  all_goals cases h; cases ht

/-- No two phases have the same micro-operation (30_encoding R100). -/
theorem microOp_injective {p q : Phase} {i : Instr} (hp : p.microOp = some i)
    (hq : q.microOp = some i) : p = q := by
  have hcode : p.code = q.code :=
    Encoded.phase.inj ((encode_microOp hp).symm.trans (encode_microOp hq))
  rw [← ofCode_code p, hcode, ofCode_code]

/-- `MA` changes in `H_INIT` and `H_LONG` only (41_mix_unit R142, R144). -/
theorem step_changes_ma {s t : State} (hn : s.resetNext = false) (h : step s = .next t)
    (hne : t.ma ≠ s.ma) : s.phase = .hInit ∨ s.phase = .hLong := by
  rcases step_fields h with ⟨hr, -⟩ |
    ⟨-, ⟨-, i, hi, he⟩ | ⟨_, _, _, _, _, rfl, -⟩ | ⟨-, n, v, _, _, _, rfl⟩⟩
  · rw [hn] at hr; cases hr
  · by_cases h1 : i = .hInit
    · subst h1; exact .inl (microOp_injective hi rfl)
    by_cases h2 : i = .hLong
    · subst h2; exact .inr (microOp_injective hi rfl)
    exact absurd (exec_ma he h1 h2) hne
  · exact absurd rfl hne
  · obtain ⟨_, _, _, _, _, _, _, _, _, he⟩ := takeWrite_fields n v _
    rw [he] at hne
    exact absurd rfl hne

theorem step_enters_hLong {s t : State} (h : step s = .next t) (ht : t.phase = .hLong) :
    s.phase = .hLong ∨ (s.phase = .hSelect ∧ 17 ≤ s.arg1.toNat) := by
  rcases step_fields h with ⟨-, u, rfl, -⟩ |
    ⟨-, ⟨-, i, hi, he⟩ | ⟨_, _, _, _, _, rfl, -⟩ | ⟨-, n, v, ws, sc, gs, rfl⟩⟩
  · cases ht
  · obtain ⟨hm, -⟩ := microOp_phase hi
    obtain ⟨rfl, hl⟩ := microOp_enters_hLong hm he ht
    exact .inr ⟨microOp_injective hi rfl, hl⟩
  · exact .inl ht
  · rcases takeWrite_phase n v { s with waiting := ws, script := sc, turns := gs } with
      hp' | hp' | ⟨c, hp'⟩ <;> rw [hp'] at ht
    · exact .inl ht
    · cases ht
    · cases c <;> cases ht

/-- Settles O36: the two meanings that write `MA`, the steps that change it, and those that reach
`H_LONG`. -/
theorem longPathUpdatesMaOnce : Obligations.LongPathUpdatesMaOnce :=
  ⟨fun _ => rfl, fun _ _ h => by cases h; rfl, fun _ _ => step_changes_ma,
    fun _ _ => step_enters_hLong⟩

/-! ### The constants in every phase -/

/-- A load leaves all that the constants are made of, so they stand as its successor phase asks. -/
theorem loadsOnly.roundConstants {s t : State} {p : Phase} (h : loadsOnly p s t)
    (hr : s.constantsAt p) : t.RoundConstants := by
  obtain ⟨_, _, _, rfl⟩ := h
  exact hr

/-- The product of `H_SEED` is that of R150 where the pair and the masks stand as `H_INIT` left them
(41_mix_unit R143). -/
theorem execHSeed_roundConstants {s t : State} (h : execHSeed s = .next t)
    (hr : s.constantsAt .hSeed) : t.RoundConstants := by
  obtain ⟨h1, h2, hma, hmb⟩ := hr
  have hprod : mulFull (s.s2 ^^^ (s.seed &&& s.mb)) (s.s1 ^^^ (s.seed &&& s.ma)) =
      seedProduct s.arg1 s.seed := by rw [h1, h2, hma, hmb]; rfl
  cases h
  exact ⟨hprod, hma, by rw [hmb]⟩

/-- After seed injection `S1` and `MB` are functions of `LEN` and `SEED`. -/
theorem s1_mb_of_seeded {s : State} (h : s.constantsAt .hSelect) :
    s.s1 = (seedProduct s.arg1 s.seed).1 ∧ s.mb = val10 ^^^ (seedProduct s.arg1 s.seed).2 := by
  obtain ⟨hpair, -, hmb⟩ := h
  rw [hmb, ← hpair]
  exact ⟨rfl, rfl⟩

/-- Each path begins with the pair and the masks as `H_SEED` left them. -/
theorem constantsAt_pathOf {s : State} (h : s.constantsAt .hSelect) :
    s.constantsAt (pathOf s.arg1) := by
  have ⟨_, hma, _⟩ := h
  obtain ⟨-, hmb⟩ := s1_mb_of_seeded h
  rcases pathOf_cases s.arg1 with ⟨-, hp⟩ | ⟨-, -, hp⟩ | ⟨-, hp⟩ <;> rw [hp]
  · exact ⟨hma, hmb⟩
  · exact ⟨hma, hmb⟩
  · exact h

/-- `H_LONG` puts the seeded `S1` into `MA` (41_mix_unit R144). -/
theorem execHLong_roundConstants {s t : State} (h : execHLong s = .next t)
    (hr : s.constantsAt .hLong) : t.RoundConstants := by
  have ⟨_, hma, _⟩ := hr
  obtain ⟨hs1, hmb⟩ := s1_mb_of_seeded hr
  cases h
  exact ⟨congrArg₂ (· ^^^ ·) hma hs1, hmb⟩

/-- On the short and the mid path finalisation finds `MA` at `VAL01`. -/
theorem constantsAt_hFin1_of_le {s : State} (hl : s.len ≤ 16) (h : s.constantsAt .hMid) :
    s.constantsAt .hFin1 := by
  obtain ⟨hma, hmb⟩ := h
  exact ⟨hma.trans (if_pos hl).symm, hmb⟩

/-- On the long path finalisation finds `MA` as `H_LONG` left it. -/
theorem constantsAt_hFin1_of_gt {s : State} (hl : ¬ s.len ≤ 16) (h : s.constantsAt .hTail) :
    s.constantsAt .hFin1 := by
  obtain ⟨hma, hmb⟩ := h
  exact ⟨hma.trans (if_neg hl).symm, hmb⟩

/-- Each phase finds the constants that R150 gives for it: the phase before it left them. -/
theorem microOp_keeps_roundConstants {i : Instr} {s t : State} (hs : s.Inv)
    (hr : s.RoundConstants) (hi : s.phase.microOp = some i) (h : exec i s = .next t) :
    t.RoundConstants := by
  have hf := hs.phaseFacts
  unfold State.RoundConstants at hr
  cases hp : s.phase <;> rw [hp] at hf hr hi <;> cases hi
  case mulX => cases h; trivial
  case prngX => cases h; trivial
  case hCheck =>
    simp only [exec, execHCheck] at h
    split_ifs at h <;> cases h <;> trivial
  case hInit => cases h; exact ⟨rfl, rfl, rfl, rfl⟩
  case hSeed => exact execHSeed_roundConstants h hr
  case hSelect => cases h; exact constantsAt_pathOf hr
  case hShort =>
    obtain ⟨-, -, hl⟩ := hf
    exact (execHShort_next h).roundConstants (constantsAt_hFin1_of_le (by omega) hr)
  case hMid =>
    obtain ⟨-, -, -, hl⟩ := hf
    exact (execHMid_next h).roundConstants (constantsAt_hFin1_of_le hl hr)
  case hLong => exact execHLong_roundConstants h hr
  case hBulkLd => exact (execHBulkLd_next h).roundConstants hr
  case hBulkMx =>
    cases h
    simp only [State.RoundConstants]
    split <;> exact hr
  case hTail =>
    obtain ⟨-, -, hl, -⟩ := hf
    exact (execHTail_next h).roundConstants (constantsAt_hFin1_of_gt (by omega) hr)
  case hFin1 => cases h; exact hr
  case hFin2 => cases h; trivial

/-- A write that an idle block takes leads to a phase that relies on no constant. -/
theorem roundConstants_takeWrite {s : State} (hp : s.phase = .idle) (n : RegNum) (v : Word) :
    (takeWrite n v s).RoundConstants := by
  unfold State.RoundConstants
  rcases takeWrite_phase n v s with he | he | ⟨c, he⟩ <;> rw [he]
  · rw [hp]; trivial
  · trivial
  · cases c <;> trivial

/-- Settles O12, by the kinds of step: a reset and a taken write lead to phases without constants, the
core's micro-operations keep them, and the host's other lines do not reach them. -/
theorem everyStepKeepsTheRoundConstants : Obligations.EveryStepKeepsTheRoundConstants := by
  intro s t hs hr h
  rcases step_fields h with ⟨-, u, rfl, -⟩ |
    ⟨-, ⟨-, i, hi, he⟩ | ⟨_, _, _, _, _, rfl, -⟩ | ⟨hp, n, v, _, _, _, rfl⟩⟩
  · trivial
  · exact microOp_keeps_roundConstants (s := afterTurn s) (inv_afterTurn hs) hr hi he
  · exact hr
  · exact roundConstants_takeWrite (by exact hp) n v

end Sys2Proof.Machine
end

section
/-! The digest engine, phase by phase (42_digest_engine R172 to R190): the checks, the choice of the path,
and the loads with both their lanes and their reads. -/

namespace Sys2Proof.Machine

/-! ### The checks and the choice of the path -/

/-- Settles O30, test by test: `NULLBUF`, then `RANGE`, then the checks that pass. -/
theorem checkPassesOrFaults : Obligations.CheckPassesOrFaults := by
  refine fun s => ⟨fun h0 hbp => ?_, fun h0 hbp hrange => ?_, execHCheck_of_checksPass⟩
  · exact if_pos ⟨h0, hbp⟩
  · have hnull : ¬ (s.arg1 ≠ 0 ∧ s.bp = false) := fun ⟨_, hb⟩ => by cases hbp.symm.trans hb
    exact (if_neg hnull).trans (if_pos ⟨h0, decide_eq_true hrange⟩)

theorem exec_hSelect (s : State) : exec .hSelect s = .next { s with phase := pathOf s.arg1 } := rfl

/-- Settles O33: the three lengths of `pathOf` exclude each other. -/
theorem pathIsChosenByLength : Obligations.PathIsChosenByLength := by
  intro s
  rw [exec_hSelect]
  rcases pathOf_cases s.arg1 with ⟨hl, he⟩ | ⟨h4, h16, he⟩ | ⟨h17, he⟩ <;> rw [he]
  · exact ⟨fun _ => rfl, fun _ _ => by omega, fun _ => by omega⟩
  · exact ⟨fun _ => by omega, fun _ _ => rfl, fun _ => by omega⟩
  · exact ⟨fun _ => by omega, fun _ _ => by omega, fun _ => rfl⟩

/-! ### The loads -/

/-- The lanes a load takes from the message and the reads it answers are those of one next state. -/
theorem LoadsLanes.eq_next {s : State} {a b : Word} {ph : Phase} {o : Out} {gap : Prop}
    {log : List ReadReq} (h : LoadsLanes s a b ph o) (hr : LoadAnswers s gap ph log o) :
    o = .next { s with la := a, lb := b, phase := ph, readLog := log } := by
  obtain ⟨log', rfl⟩ := h
  rcases hr with ⟨-, he⟩ | ⟨-, a', b', he⟩ <;> cases he
  rfl

/-- Settles O35, by the lanes and the reads of the four windows. -/
theorem midLanesAreFourWindows : Obligations.MidLanesAreFourWindows := by
  rintro s msg _ hlen h4 h16 rfl hf hm
  have hl : s.len = msg.length := hlen.symm
  have lanes := execHMid_loadsLanes hm hf rfl hl h4 h16
  have reads := execHMid_answers (s := s) (by omega) (by omega) (by omega)
  rw [messageReads_mid _ (by omega) (by omega), hl] at reads
  exact lanes.eq_next reads

section
variable {x y : List Byte} (hx : x.length = 8) (o : Config.ByteOrder)
include hx

theorem msgLane_append_fst : msgLane o (x ++ y) 0 8 = laneValue o x := by
  rw [msgLane, List.drop_zero, ← hx, List.take_left]

theorem msgLane_append_snd (hy : y.length = 8) : msgLane o (x ++ y) 8 8 = laneValue o y := by
  rw [msgLane, List.drop_left' hx, List.take_of_length_le hy.le]

end

/-- Two lanes of eight bytes that memory holds at `p`, and the reads of both (42_digest_engine R184,
R190). -/
theorem readTwoLanes_of_holdsMessage {s : State} {x y : List Byte} {u v : Int} (p : Nat) (ph : Phase)
    (hx : x.length = 8) (hy : y.length = 8) (hf : p + 16 ≤ s.inst.memSize)
    (hm : s.holdsMessage p (x ++ y)) (hu : u = (p : Nat)) (hv : v = (p + 8 : Nat)) :
    (readLane s u 8 fun a t => readLane t v 8 fun b t =>
        .next { t with la := a, lb := b, phase := ph }) =
      .next { s with la := laneValue s.inst.byteOrder x, lb := laneValue s.inst.byteOrder y
                     phase := ph, readLog := s.readLog ++ [⟨p, 8⟩, ⟨p + 8, 8⟩] } := by
  have hl : (x ++ y).length = 16 := by rw [List.length_append, hx, hy]
  have lanes := loadsLanes_twoLanes hm (by omega) 0 ph hu (y := v) (by omega) (by omega)
  rw [Nat.zero_add, msgLane_append_fst hx, msgLane_append_snd hx _ hy] at lanes
  exact lanes.eq_next (loadAnswers_twoLanes p ph hu hv hf)

/-- Settles O37: the two lanes stand at `CUR`. -/
theorem bulkLoadReadsTwoLanes : Obligations.BulkLoadReadsTwoLanes := fun s _ _ hx hy hf hm =>
  readTwoLanes_of_holdsMessage s.cur.toNat .hBulkMx hx hy hf hm rfl rfl

/-- Settles O39: the two lanes end at `CUR` + `REM`. -/
theorem tailReadsTheLastSixteenBytes : Obligations.TailReadsTheLastSixteenBytes :=
  fun s a _ _ hx hy hend hf hm =>
    readTwoLanes_of_holdsMessage a .hFin1 hx hy hf hm (by simp only [State.curNat]; omega)
      (by simp only [State.curNat]; omega)

/-! ### The short path's lane -/

theorem toNat_shiftLeft_of_lt {v : Word} {n k : Nat} (hv : v.toNat < 2 ^ n) (hn : n + k ≤ 64) :
    (v <<< k).toNat = 2 ^ k * v.toNat := by
  have hlt : v.toNat * 2 ^ k < 2 ^ (n + k) := by
    rw [pow_add]; exact Nat.mul_lt_mul_of_pos_right hv (Nat.two_pow_pos k)
  rw [BitVec.toNat_shiftLeft, Nat.shiftLeft_eq,
    Nat.mod_eq_of_lt (hlt.trans_le (Nat.pow_le_pow_right (by decide) hn)), Nat.mul_comm]

/-- A value below bit `k` beside one from bit `k` on: `OR` is their sum. -/
theorem toNat_or_shiftLeft {u v : Word} {n k : Nat} (hu : u.toNat < 2 ^ k) (hv : v.toNat < 2 ^ n)
    (hn : n + k ≤ 64) : (u ||| v <<< k).toNat = u.toNat + 2 ^ k * v.toNat := by
  rw [BitVec.toNat_or, toNat_shiftLeft_of_lt hv hn, Nat.or_comm, ← Nat.two_pow_add_eq_or_of_lt hu,
    Nat.add_comm]

/-- A byte of the message as `H_SHORT` takes it: 0 where the message has none. -/
theorem toNat_msgByte_or_zero (msg : List Byte) (i : Nat) :
    (if decide (i + 1 ≤ msg.length) then msgByte msg i else 0).toNat = (msg.getD i 0).toNat := by
  by_cases h : i + 1 ≤ msg.length
  · have htake : (msg.drop i).take 1 = [msg[i]] := by
      rw [List.drop_eq_getElem_cons h, List.take_succ_cons, List.take_zero]
    rw [if_pos (decide_eq_true h), msgByte, htake, laneValue_toNat (by simp),
      List.getD_eq_getElem _ _ h]
    simp [laneNat, littleNat]
  · rw [if_neg (by simp [h]), List.getD_eq_default _ _ (by omega)]
    rfl

/-- The short path's lane as a number: its bytes by their places (42_digest_engine R180). -/
theorem shortLane_toNat {msg : List Byte} (h : msg.length ≤ 3) :
    (shortLane msg).toNat =
      (msg.getD 0 0).toNat + 2 ^ 8 * (msg.getD 1 0).toNat + 2 ^ 16 * (msg.getD 2 0).toNat := by
  have h3 : decide (msg.length = 3) = decide (2 + 1 ≤ msg.length) := decide_eq_decide.mpr (by omega)
  have b0 := toNat_msgByte_or_zero msg 0
  have b1 := toNat_msgByte_or_zero msg 1
  have b2 := toNat_msgByte_or_zero msg 2
  have lt := fun i => (msg.getD i 0).isLt
  have low := toNat_or_shiftLeft (k := 8) (b0.trans_lt (lt 0)) (b1.trans_lt (lt 1)) (by decide)
  rw [b0, b1] at low
  rw [shortLane_eq_shifted_bytes, h3,
    toNat_or_shiftLeft (k := 16) (low.trans_lt (by have := lt 0; have := lt 1; omega))
      (b2.trans_lt (lt 2)) (by decide)]
  exact congrArg₂ (fun u v => u + 2 ^ 16 * v) low b2

theorem messageReads_short_eq_range {len : Nat} (p : Nat) (h : len ≤ 3) :
    messageReads p len = (List.range len).map fun i => ⟨p + i, 1⟩ := by
  interval_cases len <;> rfl

/-- `H_SHORT` of an empty message reads nothing, wherever the cursor stands. -/
theorem execHShort_of_empty {s : State} (h : s.len = 0) :
    execHShort s = .next { s with la := 0, lb := 0, phase := .hFin1 } := by
  simp [execHShort, h, readByteIf, loadFinal]

/-- `H_SHORT` with a message in memory: its lane and its reads (42_digest_engine R180). -/
theorem execHShort_of_holdsMessage {s : State} {msg : List Byte} (hlen : s.len = msg.length)
    (h3 : msg.length ≤ 3) (hf : s.len ≠ 0 → s.cur.toNat + msg.length ≤ s.inst.memSize)
    (hm : s.holdsMessage s.cur.toNat msg) :
    execHShort s = .next { s with
      la := shortLane msg, lb := 0, phase := .hFin1
      readLog := s.readLog ++ messageReads s.cur.toNat msg.length } := by
  by_cases h0 : s.len = 0
  · obtain rfl : msg = [] := List.length_eq_zero_iff.mp (hlen.symm.trans h0)
    rw [execHShort_of_empty h0]
    simp [shortLane, messageReads]
  · have reads := execHShort_answers (s := s) (by omega) (hlen ▸ hf h0)
    rw [hlen] at reads
    exact (execHShort_loadsLanes hm (hf h0) rfl hlen).eq_next reads

/-- Settles O34, by the lane and the reads of `H_SHORT`; an empty message needs no address. -/
theorem shortLaneIsBuiltByteByByte : Obligations.ShortLaneIsBuiltByteByByte := by
  intro s msg hlen h3 hf hm
  refine ⟨_, execHShort_of_holdsMessage hlen.symm h3 (fun h => hf ?_) hm, shortLane_toNat h3, rfl,
    congrArg (s.readLog ++ ·) (messageReads_short_eq_range s.cur.toNat h3), rfl⟩
  intro h0
  exact h (by rw [State.len, h0]; rfl)

/-! ### Whole commands -/

/-- Settles O48: the run of a passing `HASH`, of which only the working registers, `RES0`, `DONE` and
`PHASE` change. -/
theorem passingHashGivesTheDigest : Obligations.PassingHashGivesTheDigest := by
  intro s msg hleg hp ht hc hlen hm
  obtain ⟨t, hrun, hend⟩ := run_passingHash hleg hp ht hc hlen.symm hm
  refine ⟨t, hrun, ?_⟩
  rw [hend]
  exact ⟨rfl, rfl, rfl, rfl, rfl, rfl, rfl, rfl, rfl, rfl, rfl, rfl⟩

/-- Settles O50: both runs end with the digest, a function of what the two blocks agree on. -/
theorem digestDependsOnMessageSeedAndByteOrder :
    Obligations.DigestDependsOnMessageSeedAndByteOrder := by
  intro s s' msg hleg hleg' hp hp' ht ht' hc hc' hlen hlen' hm hm' hseed horder
  obtain ⟨t, hrun, -, -, hd, -⟩ := passingHashGivesTheDigest s msg hleg hp ht hc hlen hm
  obtain ⟨t', hrun', -, -, hd', -⟩ := passingHashGivesTheDigest s' msg hleg' hp' ht' hc' hlen' hm'
  exact ⟨t, t', hrun, hrun', by rw [hd, hd', hseed, horder]⟩

end Sys2Proof.Machine
end

section
/-! Every step of a running command: its reads lie inside the message (42_digest_engine R192), and it
brings the command nearer to its end (R175, 70_reset R320). -/

namespace Sys2Proof.Machine

/-! ### The reads of a micro-operation -/

/-- The reads `l` lie inside the message (42_digest_engine R192). -/
def ReadsLieInMessage (s : State) (l : List ReadReq) : Prop :=
  ∀ r ∈ l, s.arg0.toNat ≤ r.addr ∧ r.addr + r.width ≤ s.arg0.toNat + s.arg1.toNat

/-- A checked `HASH` with a load ahead, of whose message the platform does not back every byte: it may
come to a read that has no answer (20_memory R73). -/
structure State.LacksByte (s : State) : Prop where
  checked : s.hashChecked
  notFin1 : s.phase ≠ .hFin1
  notFin2 : s.phase ≠ .hFin2
  gap : hasGap s.mem s.arg0.toNat s.arg1.toNat

/-- What a micro-operation of a running command can answer: the next state, with reads inside the message,
or nothing, and then a byte of the message is not backed. -/
def AnswersInMessage (s : State) (o : Out) : Prop :=
  (∃ t new, o = .next t ∧ t.readLog = s.readLog ++ new ∧ ReadsLieInMessage s new) ∨
    (o = .fault .memoryUnanswered ∧ s.LacksByte)

/-- A micro-operation that reads nothing has a next state. -/
theorem exec_next_of_noReads {i : Instr} (h : readsMemory i = false) (s : State) :
    ∃ t, exec i s = .next t := by
  cases i
  case hShort | hMid | hBulkLd | hTail => cases h
  case hCheck => simp only [exec, execHCheck]; split_ifs <;> exact ⟨_, rfl⟩
  all_goals exact ⟨_, rfl⟩

theorem exec_readLog_of_noReads {i : Instr} {s t : State} (h : readsMemory i = false)
    (he : exec i s = .next t) : t.readLog = s.readLog := by
  obtain ⟨-, -, -, -, -, -, -, -, -, -, -, -, -, -, hload, -⟩ := writeMatrix i s t he
  refine (hload ?_ ?_ ?_ ?_).2.2 <;> rintro rfl <;> cases h

theorem answersInMessage_of_noReads {i : Instr} (h : readsMemory i = false) (s : State) :
    AnswersInMessage s (exec i s) := by
  obtain ⟨t, he⟩ := exec_next_of_noReads h s
  exact .inl ⟨t, [], he, by rw [exec_readLog_of_noReads h he, List.append_nil], nofun⟩

/-- A load of a checked `HASH` answers so, if the bytes it may miss and its reads are of the message. -/
theorem LoadAnswers.inMessage {s : State} {gap : Prop} {ph : Phase} {new : List ReadReq} {o : Out}
    (h : LoadAnswers s gap ph (s.readLog ++ new) o) (hc : s.hashChecked) (h1 : s.phase ≠ .hFin1)
    (h2 : s.phase ≠ .hFin2) (hg : gap → hasGap s.mem s.arg0.toNat s.arg1.toNat)
    (hnew : ReadsLieInMessage s new) : AnswersInMessage s o := by
  rcases h with ⟨hgap, rfl⟩ | ⟨-, a, b, rfl⟩
  · exact .inr ⟨rfl, hc, h1, h2, hg hgap⟩
  · exact .inl ⟨_, new, rfl, rfl, hnew⟩

theorem readsLieInMessage_twoLanes {s : State} {p : Nat} (h1 : s.arg0.toNat ≤ p)
    (h2 : p + 16 ≤ s.arg0.toNat + s.arg1.toNat) :
    ReadsLieInMessage s [⟨p, 8⟩, ⟨p + 8, 8⟩] := by
  intro r hr
  simp only [List.mem_cons, List.not_mem_nil, or_false] at hr
  rcases hr with rfl | rfl <;> simp only <;> omega

/-- The short and the mid path read their message and nothing else (20_memory R71). -/
theorem readsLieInMessage_messageReads {s : State} (h16 : s.len ≤ 16) :
    ReadsLieInMessage s (messageReads s.arg0.toNat s.len) := by
  have hlen : s.arg1.toNat = s.len := rfl
  unfold ReadsLieInMessage
  rw [hlen]
  by_cases h3 : s.len ≤ 3
  · intro r hr
    rw [messageReads_short_eq_range _ h3] at hr
    obtain ⟨i, hi, rfl⟩ := List.mem_map.mp hr
    have hlt := List.mem_range.mp hi
    simp only
    omega
  · intro r hr
    have ho : midOffset s.len ≤ s.len - 4 := by unfold midOffset; omega
    rw [messageReads_mid _ (by omega) h16] at hr
    simp only [List.cons_append, List.nil_append, List.mem_cons, List.not_mem_nil, or_false] at hr
    rcases hr with rfl | rfl | rfl | rfl <;> simp only <;> omega

/-- The cursor at its start, of a message that is not empty, is `PTR`. -/
theorem State.cursorAtStart.cur_eq {s : State} (h : s.cursorAtStart) (hc : s.checksPass)
    (hl : 1 ≤ s.len) : s.cur = s.arg0 := by
  have hfit := hc.message_fits hl
  have hlen : 1 ≤ s.arg1.toNat := hl
  exact h.1.trans (truncAddr_of_lt (by omega))

/-- Every micro-operation of a block under the invariant reads inside the message. -/
theorem microOp_answersInMessage {s : State} {i : Instr} (hs : s.Inv)
    (hi : s.phase.microOp = some i) : AnswersInMessage s (exec i s) := by
  have hf := hs.phaseFacts
  cases hp : s.phase <;> rw [hp] at hf hi <;> cases hi
  case hShort =>
    obtain ⟨hc, hst, h3⟩ := hf
    by_cases h0 : s.len = 0
    · exact .inl ⟨_, [], execHShort_of_empty h0, by simp, nofun⟩
    · have hfit := hc.2.message_fits (by omega)
      have answers := execHShort_answers (s := s) h3
      rw [hst.cur_eq hc.2 (by omega)] at answers
      exact (answers hfit).inMessage hc (by simp [hp]) (by simp [hp]) id
        (readsLieInMessage_messageReads (by omega))
  case hMid =>
    obtain ⟨hc, hst, h4, h16⟩ := hf
    have hfit := hc.2.message_fits (by omega)
    have answers := execHMid_answers (s := s) h4 h16
    rw [hst.cur_eq hc.2 (by omega)] at answers
    exact (answers hfit).inMessage hc (by simp [hp]) (by simp [hp]) id
      (readsLieInMessage_messageReads h16)
  case hBulkLd =>
    obtain ⟨hc, ⟨hge, -, hend⟩, hl, hrem⟩ := hf
    have hfit := hc.2.message_fits (by omega)
    exact (execHBulkLd_answers (by omega)).inMessage hc (by simp [hp]) (by simp [hp])
      (fun h => h.mono hge (by omega)) (readsLieInMessage_twoLanes hge (by omega))
  case hTail =>
    obtain ⟨hc, ⟨-, -, hend⟩, hl, -, -, hge⟩ := hf
    have hfit := hc.2.message_fits (by omega)
    obtain ⟨p, hp16⟩ := Nat.exists_eq_add_of_le' (show 16 ≤ s.cur.toNat + s.rem.toNat by omega)
    exact (execHTail_answers hp16 (by omega)).inMessage hc (by simp [hp]) (by simp [hp])
      (fun h => h.mono (by omega) (by omega))
      (readsLieInMessage_twoLanes (by omega) (by omega))
  all_goals exact answersInMessage_of_noReads rfl s

/-- Settles O52, by the kinds of step: only a micro-operation reads. -/
theorem everyReadLiesInTheMessage : Obligations.EveryReadLiesInTheMessage := by
  intro s t hs h
  rcases step_fields h with ⟨-, u, rfl, -, -, hlog⟩ |
    ⟨-, ⟨-, i, hi, he⟩ | ⟨_, _, _, _, _, rfl, -⟩ | ⟨-, n, v, _, _, _, rfl⟩⟩
  · exact ⟨[], by rw [resetBlock_readLog, hlog, List.append_nil], nofun⟩
  · rcases microOp_answersInMessage (s := afterTurn s) (inv_afterTurn hs) hi with
      ⟨t', new, he', hlog, hin⟩ | ⟨he', -⟩ <;> cases he.symm.trans he'
    exact ⟨new, hlog, hin⟩
  · exact ⟨[], (List.append_nil _).symm, nofun⟩
  · obtain ⟨_, _, _, _, _, _, _, _, _, he⟩ := takeWrite_fields n v _
    exact ⟨[], by rw [he, List.append_nil], nofun⟩

end Sys2Proof.Machine
end

section
/-! The end of a running command: the steps that are left of it, phase by phase, and that every core step
leaves fewer (42_digest_engine R175, 70_reset R320). -/

namespace Sys2Proof.Machine

/-! ### The steps that are left -/

/-- A bound on the core steps that a command still takes from a phase on, with `len` bytes to hash of which
`rem` remain (42_digest_engine R174, R175). -/
def stepsAt (len rem : Nat) : Phase → Nat
  | .idle | .fault => 0
  | .mulX | .prngX | .hFin2 => 1
  | .hCheck => hashSteps len
  | .hInit => hashSteps len - 1
  | .hSeed => hashSteps len - 2
  | .hSelect => hashSteps len - 3
  | .hShort | .hMid | .hLong => hashSteps len - 4
  | .hBulkLd => 3 + 2 * bulkCount rem
  | .hBulkMx => 2 + 2 * bulkCount rem
  | .hTail => 3
  | .hFin1 => 2

/-- The bound for the command that runs on `s`. -/
def stepsLeft (s : State) : Nat := stepsAt s.len s.rem.toNat s.phase

theorem hashSteps_ge (len : Nat) : 7 ≤ hashSteps len := by
  unfold hashSteps; split <;> omega

theorem hashSteps_long {len : Nat} (h : 17 ≤ len) : hashSteps len = 8 + 2 * bulkCount len :=
  if_neg (by omega)

/-- What remains of a message in its loop is at most the message. -/
theorem State.cursorInLoop.bulkCount_le {s : State} (h : s.cursorInLoop) :
    bulkCount s.rem.toNat ≤ bulkCount s.len := by
  obtain ⟨hge, -, hend⟩ := h
  unfold bulkCount State.len
  omega

/-- No phase has more steps ahead than the whole command (42_digest_engine R175). -/
theorem stepsLeft_le_hashSteps {s : State} (hs : s.Inv) : stepsLeft s ≤ hashSteps s.len := by
  have hf := hs.phaseFacts
  have h7 := hashSteps_ge s.len
  unfold stepsLeft
  cases hp : s.phase <;> rw [hp] at hf <;> simp only [stepsAt]
  case hBulkLd | hBulkMx =>
    obtain ⟨-, hloop, hl, -⟩ := hf
    have hle := hloop.bulkCount_le
    rw [hashSteps_long hl]
    omega
  all_goals omega

/-- Each path has what the four steps before it leave. -/
theorem stepsAt_pathOf (n rem : Nat) (len : Word) :
    stepsAt n rem (pathOf len) = hashSteps n - 4 := by
  rcases pathOf_cases len with ⟨-, he⟩ | ⟨-, -, he⟩ | ⟨-, he⟩ <;> rw [he] <;> rfl

/-- A pass of the loop takes sixteen bytes off what remains, and one off its passes (42_digest_engine
R186, R188). -/
theorem stepsAt_nextBlock (len : Nat) {rem : Nat} (h : 16 < rem) :
    stepsAt len (rem - 16) (if 16 < rem - 16 then .hBulkLd else .hTail) < 2 + 2 * bulkCount rem := by
  split_ifs with h16 <;> simp only [stepsAt, bulkCount] <;> omega

/-- Every micro-operation leaves fewer steps. -/
theorem microOp_stepsLeft_lt {s t : State} {i : Instr} (hs : s.Inv) (hi : s.phase.microOp = some i)
    (h : exec i s = .next t) : stepsLeft t < stepsLeft s := by
  have hf := hs.phaseFacts
  have h7 := hashSteps_ge s.len
  obtain ⟨-, -, h1, -⟩ := microOp_frame (microOp_phase hi).1 h
  have hlen : t.len = s.len := congrArg BitVec.toNat h1
  rw [stepsLeft, stepsLeft, hlen]
  cases hp : s.phase <;> rw [hp] at hf hi <;> cases hi <;> simp only [exec] at h
  case hCheck =>
    unfold execHCheck at h
    split_ifs at h <;> cases h <;> simp only [raiseFault_phase, stepsAt] <;> omega
  case hInit | hSeed => cases h; simp only [stepsAt]; omega
  case hSelect =>
    cases h
    change stepsAt s.len s.rem.toNat (pathOf s.arg1) < hashSteps s.len - 3
    rw [stepsAt_pathOf]
    omega
  case hShort => obtain ⟨_, _, _, rfl⟩ := execHShort_next h; simp only [stepsAt]; omega
  case hMid => obtain ⟨_, _, _, rfl⟩ := execHMid_next h; simp only [stepsAt]; omega
  case hLong =>
    obtain ⟨-, ⟨-, hrem⟩, hl⟩ := hf
    cases h
    simp only [stepsAt, hashSteps_long hl, hrem]
    unfold State.len
    omega
  case hBulkLd => obtain ⟨_, _, _, rfl⟩ := execHBulkLd_next h; simp only [stepsAt]; omega
  case hBulkMx =>
    obtain ⟨-, -, -, hr⟩ := hf
    have hrem : (s.rem - 16).toNat = s.rem.toNat - 16 := by bv_omega
    cases h
    simp only [hrem]
    exact stepsAt_nextBlock s.len hr
  case hTail => obtain ⟨_, _, _, rfl⟩ := execHTail_next h; simp [stepsAt]
  all_goals cases h; simp [stepsAt]

/-! ### The end -/

/-- The command has ended, completed or faulted (70_reset R320). -/
def State.Ended (s : State) : Prop :=
  (s.phase = .idle ∧ s.done = true) ∨ (s.phase = .fault ∧ s.done = false)

/-- A micro-operation that leads to `IDLE` completes its command (44_host_port R248). -/
theorem microOp_idle_done {i : Instr} {s t : State} (hm : isMicroOp i = true)
    (h : exec i s = .next t) (ht : t.phase = .idle) : t.done = true := by
  cases i <;> simp only [isMicroOp, reduceCtorEq] at hm <;> simp only [exec] at h
  case hCheck => unfold execHCheck at h; split_ifs at h <;> cases h <;> cases ht
  case hSelect =>
    cases h
    rcases pathOf_cases s.arg1 with ⟨-, hp⟩ | ⟨-, -, hp⟩ | ⟨-, hp⟩ <;> simp [hp] at ht
  case hShort => obtain ⟨_, _, _, rfl⟩ := execHShort_next h; cases ht
  case hMid => obtain ⟨_, _, _, rfl⟩ := execHMid_next h; cases ht
  case hTail => obtain ⟨_, _, _, rfl⟩ := execHTail_next h; cases ht
  case hBulkLd => obtain ⟨_, _, _, rfl⟩ := execHBulkLd_next h; cases ht
  case hBulkMx => cases h; simp only at ht; split at ht <;> cases ht
  case mulX | prngX | hFin2 => cases h; rfl
  all_goals cases h; cases ht

/-- A micro-operation after which no command runs has ended its command. -/
theorem microOp_ended {i : Instr} {s t : State} (hm : isMicroOp i = true) (h : exec i s = .next t)
    (ht : t.Inv) (hb : t.busy = false) : t.Ended := by
  rcases (busy_eq_false_iff t).mp hb with hp | hp
  · exact .inl ⟨hp, microOp_idle_done hm h hp⟩
  · exact .inr ⟨hp, not_done_of_ne_idle ht (by simp [hp])⟩

/-- No micro-operation takes a byte of the message away, and none comes back from the finalisation. -/
theorem State.LacksByte.of_microOp {i : Instr} {s t : State} (h : t.LacksByte)
    (hi : s.phase.microOp = some i) (he : exec i s = .next t) (hb : t.busy = true) :
    s.LacksByte := by
  obtain ⟨hcmdl, h0, h1, -, hinst, hmem, -⟩ := microOp_frame (microOp_phase hi).1 he
  obtain ⟨hc, hfin1, hfin2, hgap⟩ := h
  simp only [State.hashChecked, State.hashLatched, State.checksPass, State.bp, hcmdl, h0, h1, hinst,
    hmem] at hc hgap
  refine ⟨hc, fun hp => ?_, fun hp => ?_, hgap⟩ <;> rw [hp] at hi <;> cases hi <;> cases he
  · exact hfin2 rfl
  · cases hb

/-- A running command of whose message no byte is missing takes its next core step, and that ends it or
leaves it running, with fewer steps ahead. -/
theorem step_of_running {s : State} (hs : s.Inv) (hb : s.busy = true) (ht : s.turns = [])
    (hl : ¬ s.LacksByte) :
    ∃ t, step s = .next t ∧ t.Inv ∧ stepsLeft t < stepsLeft s ∧ t.turns = [] ∧
      (t.busy = false → t.Ended) ∧ (t.busy = true → ¬ t.LacksByte) := by
  obtain ⟨i, hi⟩ := Option.isSome_iff_exists.mp ((microOp_isSome_iff_busy s).mpr hb)
  rcases microOp_answersInMessage hs hi with ⟨t, -, he, -, -⟩ | ⟨-, hlack⟩
  · obtain ⟨hm, -⟩ := microOp_phase hi
    obtain ⟨-, -, -, -, -, -, -, -, -, hturns, -⟩ := microOp_frame hm he
    have hti := microOp_keeps_inv hs hi he
    exact ⟨t, (step_core_free ht hi (by simp [he])).trans he, hti, microOp_stepsLeft_lt hs hi he,
      hturns.trans ht, microOp_ended hm he hti, fun hb' hlack => hl (hlack.of_microOp hi he hb')⟩
  · exact absurd hlack hl

/-- The command ends within the steps that are left of it. -/
theorem run_to_end {s : State} {n : Nat} (hs : s.Inv) (hb : s.busy = true) (ht : s.turns = [])
    (hl : ¬ s.LacksByte) (hn : stepsLeft s ≤ n) : ∃ k t, k ≤ n ∧ run k s = .next t ∧ t.Ended := by
  induction n generalizing s with
  | zero =>
    obtain ⟨t, -, -, hlt, -⟩ := step_of_running hs hb ht hl
    omega
  | succ n ih =>
    obtain ⟨t, hstep, hti, hlt, htt, hend, hlack⟩ := step_of_running hs hb ht hl
    cases hbt : t.busy with
    | false => exact ⟨1, t, by omega, run_of_step 0 hstep, hend hbt⟩
    | true =>
      obtain ⟨k, u, hk, hrun, hu⟩ := ih hti hbt htt (hlack hbt) (by omega)
      exact ⟨k + 1, u, by omega, (run_of_step k hstep).trans hrun, hu⟩

/-- Settles O53: the steps that are left fall with every core step, and are at most those of R175. -/
theorem everyRunningCommandEnds : Obligations.EveryRunningCommandEnds := by
  intro s hs hb ht hbacked
  refine run_to_end hs hb ht (fun ⟨⟨hlatch, hc⟩, h1, h2, a, hge, hlt, hnone⟩ => ?_)
    (stepsLeft_le_hashSteps hs)
  obtain ⟨b, hsome⟩ := hbacked hlatch hc h1 h2 a hge hlt
  cases hnone.symm.trans hsome

end Sys2Proof.Machine
end

section
/-! The generator (43_prng_stepper R220 to R226): the step of the cells, when both become 0, and that the
generator and the digest do not touch each other. -/

namespace Sys2Proof.Machine

/-! ### The step of the cells -/

theorem exec_prngX (s : State) :
    exec .prngX s = .next { s with p1 := (prngStep s.p1 s.p2).1, p2 := (prngStep s.p1 s.p2).2.1,
                                   res0 := (prngStep s.p1 s.p2).2.2, done := true,
                                   phase := .idle } := rfl

/-- Settles O27, by the accept of a command row and the exactness of the step's product. -/
theorem pnextStepsTheCells : Obligations.PnextStepsTheCells :=
  ⟨fun _ hp => exec_command_idle hp .pnext,
    fun s => ⟨_, exec_prngX s, prngStep_exact s.p1 s.p2, rfl, rfl⟩⟩

/-! ### The cells at zero -/

theorem add_val01_eq_zero_iff (a : Word) : a + val01 = 0 ↔ a = 0xAAAAAAAAAAAAAAAB :=
  eq_neg_iff_add_eq_zero.symm

theorem add_val10_eq_zero_iff (b : Word) : b + val10 = 0 ↔ b = 0x5555555555555556 :=
  eq_neg_iff_add_eq_zero.symm

/-- Both new cells are 0 exactly where one perturbed cell is 0 (43_prng_stepper R225). -/
theorem prngStep_cells_eq_zero_iff (a b : Word) :
    (prngStep a b).1 = 0 ∧ (prngStep a b).2.1 = 0 ↔
      a = 0xAAAAAAAAAAAAAAAB ∨ b = 0x5555555555555556 := by
  rw [← add_val01_eq_zero_iff, ← add_val10_eq_zero_iff, ← mulFull_eq_zero_iff, Prod.ext_iff]
  rfl

/-- Settles O28: the product of the perturbed cells is 0 where a factor is, and the cells `(0, 0)` are
not among the states where that happens. -/
theorem generatorNeverStaysAtZero : Obligations.GeneratorNeverStaysAtZero := by
  intro s t ht
  cases ht
  refine ⟨prngStep_cells_eq_zero_iff s.p1 s.p2, fun u hu ⟨h1, h2⟩ hzero => ?_⟩
  cases hu
  have hpre := (prngStep_cells_eq_zero_iff _ _).mp hzero
  rw [h1, h2] at hpre
  exact absurd hpre (by decide)

/-! ### Instructions that are blind to the cells -/

/-- `s` with other generator cells. -/
def State.withCells (a b : Word) (s : State) : State := { s with p1 := a, p2 := b }

/-- The instruction answers the same whatever the cells hold, and carries them along. -/
def BlindToCells (i : Instr) : Prop :=
  ∀ (s : State) (a b : Word), exec i (s.withCells a b) = mapNext (State.withCells a b) (exec i s)

/-- What is blind to the cells keeps them: `s` is itself with its own cells, so the answer has those
cells too. -/
theorem BlindToCells.keeps_cells {i : Instr} {s t : State} (hi : BlindToCells i)
    (h : exec i s = .next t) : t.p1 = s.p1 ∧ t.p2 = s.p2 := by
  have hself : exec i s = mapNext (State.withCells s.p1 s.p2) (exec i s) := hi s s.p1 s.p2
  rw [h] at hself
  have ht : t = t.withCells s.p1 s.p2 := Host.Outcome.next.inj hself
  rw [ht]
  exact ⟨rfl, rfl⟩

/-- A command row on a block that is not idle waits at the port (44_host_port R244). -/
theorem exec_command_notIdle {s : State} (hp : s.phase ≠ .idle) (c : Command) :
    exec c.toInstr s = .next (holdWrite 0 c.word s) := by
  rw [exec_command]
  exact congrArg Host.Outcome.next (portWrite_notIdle hp 0 c.word)

/-- An accept writes the latch, `DONE` and `PHASE`, and a stalled command only waits. -/
theorem command_blindToCells (c : Command) : BlindToCells c.toInstr := by
  intro s a b
  by_cases hp : s.phase = .idle
  · rw [exec_command_idle hp, exec_command_idle (s := s.withCells a b) hp]
    rfl
  · rw [exec_command_notIdle hp, exec_command_notIdle (s := s.withCells a b) hp]
    rfl

section
variable {a b : Word} (s : State) (addr : Int) (n : Nat)

/-- Whether and what message memory answers depends on the parameters and the memory alone. -/
theorem readBytes_of_sameMemory :
    (∃ r, ∀ (u : State) (k : List Byte → State → Out), u.inst = s.inst → u.mem = s.mem →
      readBytes u addr n k = .fault r) ∨
    (∃ bs, ∀ (u : State) (k : List Byte → State → Out), u.inst = s.inst → u.mem = s.mem →
      readBytes u addr n k = k bs { u with readLog := u.readLog ++ [⟨addr.toNat, n⟩] }) := by
  by_cases hf : 0 ≤ addr ∧ addr + n ≤ s.inst.memSize
  · cases hb : memBytes s.mem addr.toNat n with
    | none =>
      exact .inl ⟨.memoryUnanswered, fun u k hi hm => by simp only [readBytes, hi, hm, if_pos hf, hb]⟩
    | some bs => exact .inr ⟨bs, fun u k hi hm => by simp only [readBytes, hi, hm, if_pos hf, hb]⟩
  · exact .inl ⟨.noSuchAddress, fun u k hi _ => by simp only [readBytes, hi, if_neg hf]⟩

theorem readBytes_withCells {k k' : List Byte → State → Out}
    (hk : ∀ bs t, k' bs (t.withCells a b) = mapNext (State.withCells a b) (k bs t)) :
    readBytes (s.withCells a b) addr n k' =
      mapNext (State.withCells a b) (readBytes s addr n k) := by
  rcases readBytes_of_sameMemory s addr n with ⟨r, h⟩ | ⟨bs, h⟩ <;>
    rw [h s k rfl rfl, h (s.withCells a b) k' rfl rfl]
  · rfl
  · exact hk bs { s with readLog := s.readLog ++ [⟨addr.toNat, n⟩] }

theorem readLane_withCells {k k' : Word → State → Out}
    (hk : ∀ v t, k' v (t.withCells a b) = mapNext (State.withCells a b) (k v t)) :
    readLane (s.withCells a b) addr n k' = mapNext (State.withCells a b) (readLane s addr n k) :=
  readBytes_withCells s addr n fun _ => hk _

theorem readByteIf_withCells (c : Bool) {k k' : Word → State → Out}
    (hk : ∀ v t, k' v (t.withCells a b) = mapNext (State.withCells a b) (k v t)) :
    readByteIf c (s.withCells a b) addr k' =
      mapNext (State.withCells a b) (readByteIf c s addr k) := by
  cases c
  · exact hk 0 s
  · exact readBytes_withCells s addr 1 fun _ => hk _

end

/-- Of the micro-operations only `PRNG_X` sees the cells: the loads go read by read, and the others name
no cell. -/
theorem microOp_blindToCells {i : Instr} (hm : isMicroOp i = true) (hne : i ≠ .prngX) :
    BlindToCells i := by
  intro s a b
  cases i
  case mul | hash | pnext | rd | wr => cases hm
  case prngX => exact absurd rfl hne
  case hCheck =>
    simp only [exec, execHCheck, apply_ite (mapNext _)]
    rfl
  case hShort =>
    simp only [exec, execHShort]
    iterate 3 refine readByteIf_withCells _ _ _ fun _ _ => ?_
    rfl
  case hMid =>
    simp only [exec, execHMid]
    iterate 4 refine readLane_withCells _ _ _ fun _ _ => ?_
    rfl
  case hBulkLd | hTail =>
    simp only [exec, execHBulkLd, execHTail]
    iterate 2 refine readLane_withCells _ _ _ fun _ _ => ?_
    rfl
  all_goals rfl

/-- Settles O29: `MUL`, `HASH` and their phases are blind to the cells, and `PRNG_X` writes values of
`prngStep` on the cells alone. -/
theorem generatorAndDigestAreIndependent : Obligations.GeneratorAndDigestAreIndependent := by
  refine ⟨fun i s a b hi => ?_, fun s s' t t' h1 h2 ht ht' => ?_, fun s t ht => ?_⟩
  · have hblind : BlindToCells i := by
      rcases hi with ⟨hm, hne⟩ | rfl | ⟨bp, sv, rfl⟩
      · exact microOp_blindToCells hm hne
      · exact command_blindToCells .mul
      · exact command_blindToCells (.hash bp sv)
    exact ⟨hblind s a b, fun _ => hblind.keeps_cells⟩
  · rw [exec_prngX] at ht ht'
    cases ht
    cases ht'
    simp only [h1, h2, and_self]
  · cases ht
    rfl

end Sys2Proof.Machine
end

section
/-! The transactions of the port (44_host_port R241, R243, R244, R246): what a read gives, what a taken
write stores, and how a write waits. -/

namespace Sys2Proof.Machine

/-! ### Reads -/

/-- The fields of `STATUS` at their weights (10_state R29). -/
theorem statusFields_toNat (c : Cause) (f d b : Bool) :
    (0#56 ++ Cause.code c ++ 0#1 ++ BitVec.ofBool f ++ BitVec.ofBool d ++ BitVec.ofBool b).toNat =
      16 * (Cause.code c).toNat + 4 * f.toNat + 2 * d.toNat + b.toNat := by
  cases c <;> revert f d b <;> decide

theorem status_toNat (s : State) : s.status.toNat = s.statusNat := by
  have hfault : 4 * s.faulted.toNat = if s.phase = .fault then 4 else 0 := by
    by_cases h : s.phase = .fault <;> simp [State.faulted, h]
  have hdone : 2 * s.done.toNat = if s.done then 2 else 0 := by cases s.done <;> rfl
  have hbusy : s.busy.toNat = if s.phase = .idle ∨ s.phase = .fault then 0 else 1 := by
    simp only [← busy_eq_false_iff]
    cases s.busy <;> rfl
  rw [State.status, statusFields_toNat, State.statusNat, hfault, hdone, hbusy]
  cases s.cause <;> rfl

/-- The reserved numbers read 0 (44_host_port R241). -/
theorem portRead_reserved {n : RegNum} (h : 9 ≤ n.toNat) (s : State) : portRead n s = 0 := by
  unfold portRead
  split
  case h_10 => rfl
  all_goals omega

/-- Settles O14: the value is `portRead` of the number, one number after the other. -/
theorem readGivesTheNamedRegister : Obligations.ReadGivesTheNamedRegister := by
  intro s n
  refine ⟨portRead n s, rfl, ?_, ?status, ?_, ?_, ?_, ?_, ?_, ?_, ?_,
    fun h => portRead_reserved h s⟩
  case status => rintro rfl; exact status_toNat s
  all_goals rintro rfl; rfl

/-! ### Writes that the port takes -/

theorem exec_wr_idle {s : State} (hp : s.phase = .idle) (n : RegNum) (v : Word) :
    exec (.wr n v) s = .next (takeWrite n v s) :=
  congrArg Host.Outcome.next (portWrite_idle hp n v)

/-- `STATUS`, `RES0`, `RES1` and the reserved numbers are written by no host write (44_host_port R246). -/
theorem takeWrite_ignored {n : RegNum} (h : n = 1 ∨ n = 5 ∨ n = 6 ∨ 9 ≤ n.toNat) (v : Word)
    (s : State) : takeWrite n v s = s := by
  rcases takeWrite_byNumber n v s with ⟨rfl, -⟩ | ⟨rfl, -⟩ | ⟨rfl, -⟩ | ⟨rfl, -⟩ | ⟨rfl, -⟩ |
    ⟨rfl, -⟩ | he
  case inr.inr.inr.inr.inr.inr => exact he
  all_goals exact absurd h (by decide)

/-- Settles O16: an idle block takes the write, and the number says what it stores. -/
theorem takenWriteStoresTheWholeValue : Obligations.TakenWriteStoresTheWholeValue := by
  intro s v hp
  refine ⟨exec_wr_idle hp 2 v, exec_wr_idle hp 3 v, exec_wr_idle hp 4 v, exec_wr_idle hp 7 v,
    exec_wr_idle hp 8 v, fun n hn => ?_⟩
  rw [exec_wr_idle hp, takeWrite_ignored hn]

/-! ### Writes that wait -/

theorem exec_wr_notIdle {s : State} (hp : s.phase ≠ .idle) (n : RegNum) (v : Word) :
    exec (.wr n v) s = .next (holdWrite n v s) :=
  congrArg Host.Outcome.next (portWrite_notIdle hp n v)

/-- The host's turn while a write waits: the oldest one on an idle block, and else nothing
(44_host_port R244). -/
theorem step_host_turn_waiting {s : State} {w : PortWrite} {ws : List PortWrite} {gs : List Agent}
    (hw : s.waiting = w :: ws) (ht : s.turns = .host :: gs) :
    step s = if s.phase = .idle then exec (.wr w.reg w.value) { s with waiting := ws, turns := gs }
      else .next { s with turns := gs } := by
  rw [step_host_turn ht]
  simp only [hostReady, hostStep, hw, beq_iff_eq]

/-- Settles O19: the write is held, and the host's turn depends on whether the block is idle. -/
theorem writeWaitsUntilTheBlockIsIdle : Obligations.WriteWaitsUntilTheBlockIsIdle := by
  refine ⟨fun s n v hp => exec_wr_notIdle hp n v, fun s w ws gs hw ht hp => ?_,
    fun s w ws gs hw ht hp => ?_⟩
  · rw [step_host_turn_waiting hw ht, if_neg hp]
  · rw [step_host_turn_waiting hw ht, if_pos hp]

end Sys2Proof.Machine
end

section
/-! The block's faults (60_exceptions): what raises `ILLEGAL`, what leaves the fault state, and the level
outputs. -/

namespace Sys2Proof.Machine

/-! ### The level outputs -/

/-- `DONE` is bit 1 of `STATUS`: above the field `BUSY` (10_state R29). -/
theorem status_getLsbD_one (s : State) : s.status.getLsbD 1 = s.done := by
  unfold State.status
  rw [BitVec.getLsbD_append, BitVec.getLsbD_append]
  simp

/-- `FAULT` is bit 2 of `STATUS`: above the fields `BUSY` and `DONE` (10_state R29). -/
theorem status_getLsbD_two (s : State) : s.status.getLsbD 2 = s.faulted := by
  unfold State.status
  rw [BitVec.getLsbD_append, BitVec.getLsbD_append, BitVec.getLsbD_append]
  simp

/-- Settles O23, bit by bit. -/
theorem levelOutputsMirrorStatus : Obligations.LevelOutputsMirrorStatus := by
  intro s
  rw [status_getLsbD_zero, status_getLsbD_one, status_getLsbD_two, State.outputs]

/-! ### Command accept by the word -/

/-- The latch keeps the low five bits of the word (10_state R33). -/
theorem latch_eq_ofNat (w : Word) : w.extractLsb' 0 5 = BitVec.ofNat 5 w.toNat := rfl

/-- A write of a command's word to `CMD` of an idle block starts the command (44_host_port R247). -/
theorem exec_wr_commandWord {s : State} (hp : s.phase = .idle) (c : Command) :
    exec (.wr 0 c.word) s = .next { s with cmdl := c.word.extractLsb' 0 5, done := false,
                                           phase := Command.firstPhase c } :=
  (exec_command c s).symm.trans (exec_command_idle hp c)

theorem accept_illegal {w : Word} (hw : decodeCommand w = none) (s : State) :
    accept w s = { s with cmdl := w.extractLsb' 0 5, done := false, cause := .illegal,
                          phase := .fault } := by
  rcases accept_cases w s with ⟨c, hc, -⟩ | ⟨-, he⟩
  · cases hw.symm.trans hc
  · exact he

/-- Settles O17: the six legal words are the words of commands, and any other word does not decode. -/
theorem commandAcceptStartsOrFaults : Obligations.CommandAcceptStartsOrFaults := by
  intro s w hp
  refine ⟨?mul, ?pnext, ?hash, ?illegal⟩
  case mul => rintro rfl; exact exec_wr_commandWord hp .mul
  case pnext => rintro rfl; exact exec_wr_commandWord hp .pnext
  case hash =>
    rintro (rfl | rfl | rfl | rfl)
    · exact exec_wr_commandWord hp (.hash false false)
    · exact exec_wr_commandWord hp (.hash true false)
    · exact exec_wr_commandWord hp (.hash false true)
    · exact exec_wr_commandWord hp (.hash true true)
  case illegal =>
    intro h1 h2 hA h12 h1A h3
    obtain ⟨-, -, -, -, -, -, hnone, -⟩ := legalCommandWordsAreExactlySix
    rw [exec_wr_idle hp, ← latch_eq_ofNat, ← accept_illegal (hnone w h1 h2 hA h12 h1A h3)]
    rfl

/-! ### Out of the fault state -/

/-- Settles O9: a block in `FAULT` runs no micro-operation and takes no write, so a step that is no reset
reaches only what stands outside the block. -/
theorem onlyResetLeavesTheFaultState : Obligations.OnlyResetLeavesTheFaultState := by
  intro s t hp h
  rcases step_fields h with ⟨hr, u, rfl, -⟩ |
    ⟨hn, ⟨hb, -⟩ | ⟨_, _, _, _, _, rfl, -⟩ | ⟨hidle, -⟩⟩
  · exact .inl ⟨hr, rfl, rfl, rfl, rfl⟩
  · exact absurd hp (ne_fault_of_busy hb)
  · exact .inr ⟨hn, rfl⟩
  · cases hp.symm.trans hidle

end Sys2Proof.Machine
end
